-- ==== Sys2Proof/Word.lean ====
section
/-! DEFINITION. The two widths the block moves: bytes, and the 32-bit words of its command and response ports. -/

namespace Sys2Proof

/-- A byte, an unsigned value in `0..255` (00_scope.md R17). -/
abbrev Byte := BitVec 8

/-- A command word or a response word, bit 0 least significant (20_memory.md R46, R48). -/
abbrev Word := BitVec 32

end Sys2Proof
end

