-- ==== Sys2Proof/Config.lean ====
section
/-! DEFINITION. What an instance fixes at elaboration (00_scope.md section 3), what the model fixes for every instance, and
the one free value: what the environment does next. -/

namespace Sys2Proof

/-- Which 16-bit composition GET_INT computes (00_scope.md R12). -/
inductive GetIntMode where
  /-- `(high << 8) | low` (43_accessors.md R103). -/
  | intended
  /-- `high << (8 + low)` (43_accessors.md R104). -/
  | reference
  deriving DecidableEq, Repr

/-- A bound of one PROCESS command: `UNBOUNDED` or a natural number (00_scope.md R13, R14). -/
inductive Limit where
  | unbounded
  | atMost (n : Nat)
  deriving DecidableEq, Repr

/-- The elaboration parameters of an instance, "constants for the life of an instance" (00_scope.md section 3, 10_state.md
R31). They are carried, read only, in the state, so that every statement holds for every instance (assumption 1). -/
structure Params where
  /-- `N`, the payload length in bytes (R9). -/
  payloadLen : Nat
  /-- `MARKER` (R11). -/
  marker : Byte
  /-- `ACK_MARKER` (R11). -/
  ackMarker : Byte
  /-- `GETINT_MODE` (R12). -/
  getIntMode : GetIntMode
  /-- `RETRY_LIMIT` (R13). -/
  retryLimit : Limit
  /-- `DRAIN_LIMIT` (R14). -/
  drainLimit : Limit
  /-- `XPORT_CFG`, accepted and read by no rule (R16); DESIGN CHOICE a natural number stands for the opaque value
  (assumption 13). -/
  xportCfg : Nat
  deriving DecidableEq, Repr

/-- `C = N + 3` (00_scope.md R10). -/
def Params.capacity (p : Params) : Nat := p.payloadLen + 3

/-- `1 <= N <= 256`: an instance is elaborated for these lengths only (00_scope.md R9). -/
abbrev Params.Legal (p : Params) : Prop := 1 ≤ p.payloadLen ∧ p.payloadLen ≤ 256

/-- What the outside does just before one move of the block: the `rst` pin, the bytes that become readable at the
transport, and the word offered on the `cmd` port (30_encoding.md R57; assumption 4). -/
structure Turn where
  rst : Bool
  rx : List Byte
  cmd : Option Word
  deriving DecidableEq, Repr, Inhabited

/-- A turn in which nothing happens outside. -/
def Turn.quiet : Turn := ⟨false, [], none⟩

/-- A turn in which bytes arrive and nothing else happens. -/
def Turn.arrive (bs : List Byte) : Turn := ⟨false, bs, none⟩

/-- A turn in which the host issues a command word and nothing else happens. -/
def Turn.issue (w : Word) : Turn := ⟨false, [], some w⟩

/-- FREE VALUE (60_exceptions.md R123, 93_implementation_defined.md I8: "`any value` (an environment draw at every
RX_AVAILABLE)"): what the environment does at the n-th turn, beyond the turns a state's script writes out (assumption 4). -/
opaque Config.envTurn : Nat → Turn

/-- `W_LONG`, the width of the GET_LONG result (00_scope.md R15). -/
def Config.wLong : Nat := 32

/-- What an index of the storage that nothing has written since reset reads as. DESIGN CHOICE, unsafe: the contents after
reset are unspecified and unobservable (10_state.md R23; assumption 2). -/
def Config.unwrittenByte : Byte := 0x00#8

/-- The instance State.reset stands for: every default of 00_scope.md section 3, and `N = 3`. DESIGN CHOICE: the spec gives
`N` no default (assumption 1), nor XPORT_CFG a value (assumption 13). -/
def Config.defaultParams : Params where
  payloadLen := 3
  marker := 0x73#8
  ackMarker := 0x61#8
  getIntMode := .intended
  retryLimit := .unbounded
  drainLimit := .unbounded
  xportCfg := 0

end Sys2Proof
end

