-- ==== Sys2Proof/Syntax.lean ====
section
/-! DEFINITION. The commands of the block (30_encoding.md section 4). The block has no instruction set; its instructions are
the commands of its command port (00_scope.md R2). -/

namespace Sys2Proof

/-- One constructor per mnemonic of spec/opcode_table.json. `i` and `j` are the payload offset operands `I` and `J`
(30_encoding.md R59). The table's fourteen RESERVED rows are one operation of the word (44_queries.md R109), so one
constructor, which keeps the word whole (DESIGN CHOICE, assumption 11). -/
inductive Instr where
  /-- Run one decode attempt (42_decode.md R81). -/
  | process
  /-- Read a payload byte (43_accessors.md R101). -/
  | getByte (i : Byte)
  /-- Compose 16 bits from two payload bytes (43_accessors.md R102). -/
  | getInt (i j : Byte)
  /-- Compose 32 bits from the payload bytes from `i` to `j` (43_accessors.md R105). -/
  | getLong (i j : Byte)
  /-- Read the live count (44_queries.md R106). -/
  | count
  /-- Is a resident candidate frame held (44_queries.md R107)? -/
  | isFull
  /-- Is no live byte held (44_queries.md R108)? -/
  | isEmpty
  /-- A reserved command word (44_queries.md R109). -/
  | reserved (word : Word)
  deriving DecidableEq, Repr

end Sys2Proof
end

