-- ==== Sys2Proof/Machine/State.lean ====
section
/-! DEFINITION. The state of the block and of the environment beside it (10_state.md), the reasons a step stops, and the
state after reset. -/

namespace Sys2Proof.Machine

/-- `SEQ`, the position of the decode sequencer (10_state.md R28, 42_decode.md R82). -/
inductive Seq where
  /-- `IDLE`: no command is in execution. -/
  | idle
  | s1
  | s2
  | s3
  | s4
  | s5
  /-- Still step `S5`: TX_WRITE(ACK_MARKER) is done, TX_WRITE of the checksum is not (DESIGN CHOICE, assumption 3: a reset
  can come between the two writes, 70_reset_and_hazards.md R128). -/
  | s5Ack
  | s6
  deriving DecidableEq, Repr

/-- The states of the phase view (10_state.md R37). -/
inductive Phase where
  | empty
  | filling
  | ready
  | pendingDiscard
  deriving DecidableEq, Repr

/-- Nothing faults: "No operation of the block raises an exception, traps, stops or reports an error" (60_exceptions.md
R110), and an access of the storage cannot leave `0..C-1` (assumption 7). The type has no constructor. -/
inductive Fault : Type where
  deriving DecidableEq, Repr

/-- Why a step has no next state. -/
inductive Refusal where
  /-- Raised by an arm of exec for an instruction without a meaning; no arm raises it. Safe. -/
  | notModelled (mnemonic : String)
  /-- Raised by `selectMove` when `N` is outside `1..256`: no instance is elaborated (93_implementation_defined.md I10;
  assumption 6). Safe. -/
  | noInstance
  /-- Raised by `selectMove` when the host offers a word while a command executes: the host has no such move
  (93_implementation_defined.md I13, 60_exceptions.md R121; assumption 5). Safe. -/
  | commandWhileBusy
  deriving DecidableEq, Repr

/-- The state (10_state.md). -/
structure State where
  /-- The instance's elaboration parameters; no step writes them (10_state.md R31; assumption 1). -/
  params : Params
  /-- `STORE`: the cells of the buffer storage that hold something other than `Config.unwrittenByte`, strictly rising
  (10_state.md R23; assumption 2). -/
  store : List Host.Cell
  /-- `HEAD` (10_state.md R24). -/
  head : Nat
  /-- `TAIL` (10_state.md R24). -/
  tail : Nat
  /-- `VALID` (10_state.md R27). -/
  valid : Bool
  /-- `SEQ` (10_state.md R28). -/
  seq : Seq
  /-- `RETRIES` (10_state.md R29). -/
  retries : Nat
  /-- `READS` (10_state.md R29). -/
  reads : Nat
  /-- `RXQ`: the transport's readable bytes, oldest first (10_state.md R38). -/
  rxq : List Byte
  /-- `TXLOG`: the bytes written to the transport, oldest first (10_state.md R38). -/
  txlog : List Byte
  /-- The response words delivered on `rsp`, oldest first (30_encoding.md R57, R60). The model's own (assumption 8). -/
  rsplog : List Word
  /-- The environment's next turns, first one next. The model's own (assumption 4). -/
  script : List Turn
  /-- How many turns have been taken: the argument of the free value `Config.envTurn`. The model's own (assumption 4). -/
  clock : Nat
  deriving DecidableEq, Repr

/-- What a step does once the environment has had its turn. -/
inductive Move where
  /-- The environment's turn is no move it has. -/
  | refuse (r : Refusal)
  /-- No command executes: the step ends in this state. -/
  | settle (s : State)
  /-- The command executes, or goes on, in this state. -/
  | run (i : Instr) (s : State)

/-- The machine right after reset (10_state.md R39): an empty buffer, `VALID = 0`, `SEQ = IDLE`, the counters 0, nothing
listed in the storage. The instance, the empty transport and logs, and the model's own fields are DESIGN CHOICE (assumptions
1, 4, 8, 13). -/
def State.reset : State where
  params := Config.defaultParams
  store := []
  head := 0
  tail := 0
  valid := false
  seq := .idle
  retries := 0
  reads := 0
  rxq := []
  txlog := []
  rsplog := []
  script := []
  clock := 0

end Sys2Proof.Machine
end

