-- ==== Sys2Proof/Machine/Flags.lean ====
section
/-! DEFINITION. The conditions of the block: the live count, full and empty, which are functions of the cursors and not
stored (10_state.md R25, R30), the phase view (R37), and the two limits of a PROCESS command. The block has no flags register
(R30). -/

namespace Sys2Proof.Machine

/-- `C`, the buffer capacity (00_scope.md R10). -/
def State.capacity (s : State) : Nat := s.params.capacity

/-- `live_count = (TAIL - HEAD) mod C`, the non-negative remainder (10_state.md R25): BUF_COUNT (40_buffer.md R72). -/
def State.liveCount (s : State) : Nat := (((s.tail : Int) - (s.head : Int)) % (s.capacity : Int)).toNat

/-- BUF_FULL: `live_count == C - 1` (40_buffer.md R73). -/
def State.bufFull (s : State) : Bool := s.liveCount == s.capacity - 1

/-- BUF_EMPTY: `HEAD == TAIL` (40_buffer.md R74). -/
def State.bufEmpty (s : State) : Bool := s.head == s.tail

/-- The phase view: Empty, Filling and Ready at rest, PendingDiscard in step S1 of a PROCESS entered with `VALID == 1`, and
no phase elsewhere inside a command (10_state.md R37; assumption 17). -/
def State.phase (s : State) : Option Phase :=
  match s.seq with
  | .idle =>
    if s.valid then some .ready
    else if s.liveCount = 0 then some .empty
    else some .filling
  | .s1 => if s.valid then some .pendingDiscard else none
  | _ => none

/-- `RETRY_LIMIT != UNBOUNDED and RETRIES == RETRY_LIMIT` (42_decode.md R82 step S5). -/
def State.retriesSpent (s : State) : Bool :=
  match s.params.retryLimit with
  | .unbounded => false
  | .atMost n => s.retries == n

/-- `DRAIN_LIMIT == UNBOUNDED or READS < DRAIN_LIMIT` (42_decode.md R82 step S4). -/
def State.mayRead (s : State) : Bool :=
  match s.params.drainLimit with
  | .unbounded => true
  | .atMost n => s.reads < n

end Sys2Proof.Machine
end

