-- ==== Sys2Proof/Machine/Ops.lean ====
section
/-! DEFINITION. The named operations every command is written over: the storage (10_state.md R23, 20_memory.md R40, R41), the
circular buffer controller (40_buffer.md), the transport primitives (60_exceptions.md R123 to R125), the response port
(30_encoding.md R60) and the reset pin (70_reset_and_hazards.md R128).

The block has no exception, trap or interrupt, and no return from one (60_exceptions.md R110, R113, R114), so there is no
operation that takes one: every failure is absorbed where it happens (R111). -/

namespace Sys2Proof.Machine

/-! ### The storage -/

/-- The canonical form from an address on: addresses strictly rising, and no byte that an unlisted index reads as. -/
def Memory.wfFrom : Nat → List Host.Cell → Bool
  | _, [] => true
  | lo, (a, b) :: rest => lo ≤ a && b != Config.unwrittenByte && Memory.wfFrom (a + 1) rest

/-- The canonical form of the storage. -/
def Memory.wf (m : List Host.Cell) : Bool := Memory.wfFrom 0 m

/-- The byte at an index; an unlisted index reads as `Config.unwrittenByte`. -/
def Memory.read : List Host.Cell → Nat → Byte
  | [], _ => Config.unwrittenByte
  | (x, v) :: rest, a => if x = a then v else Memory.read rest a

/-- Put a byte before the cells of higher indexes, unless an unlisted index reads as that byte. -/
def Memory.consCell (a : Nat) (b : Byte) (m : List Host.Cell) : List Host.Cell :=
  if b = Config.unwrittenByte then m else (a, b) :: m

/-- Write the byte at an index, keeping the canonical form. -/
def Memory.write : List Host.Cell → Nat → Byte → List Host.Cell
  | [], a, b => Memory.consCell a b []
  | (x, v) :: rest, a, b =>
    if a < x then Memory.consCell a b ((x, v) :: rest)
    else if a = x then Memory.consCell a b rest
    else (x, v) :: Memory.write rest a b

/-- The storage index of a cursor position: every index is taken modulo `C`, so no access leaves `0..C-1` (10_state.md R24;
assumption 7). -/
def State.slot (s : State) (n : Nat) : Nat := n % s.capacity

/-- `STORE[k]` (00_scope.md R18). -/
def State.storeRead (s : State) (k : Nat) : Byte := Memory.read s.store k

/-- `STORE[k] <- b` (00_scope.md R18). -/
def State.storeWrite (s : State) (k : Nat) (b : Byte) : State := { s with store := Memory.write s.store k b }

/-! ### The circular buffer controller -/

/-- BUF_PEEK(k): the byte at offset `k` from the head, 0 outside the live region (40_buffer.md R71). -/
def State.bufPeek (s : State) (k : Nat) : Byte :=
  if k ≥ s.liveCount then 0x00#8 else s.storeRead (s.slot (s.head + k))

/-- BUF_PUSH(b): append at the tail if not full, else drop (40_buffer.md R69). -/
def State.bufPush (s : State) (b : Byte) : State :=
  if s.bufFull then s else { s.storeWrite (s.slot s.tail) b with tail := (s.tail + 1) % s.capacity }

/-- BUF_POP(): the head byte and the state without it; 0 and no change when empty (40_buffer.md R70). -/
def State.bufPop (s : State) : Byte × State :=
  if s.liveCount = 0 then (0x00#8, s)
  else (s.storeRead (s.slot s.head), { s with head := (s.head + 1) % s.capacity })

/-! ### The transport -/

/-- RX_AVAILABLE() and, where it is true, the RX_READ() right after it: none when no byte is readable (60_exceptions.md
R123), else the oldest readable byte and the state without it (R124). The block reads in no other way (R124). -/
def State.rxTake (s : State) : Option (Byte × State) :=
  match s.rxq with
  | [] => none
  | b :: rest => some (b, { s with rxq := rest })

/-- TX_WRITE(b): append to the transport's output (60_exceptions.md R125). -/
def State.txWrite (s : State) (b : Byte) : State := { s with txlog := s.txlog ++ [b] }

/-! ### The response port and the reset pin -/

/-- Deliver the response word of a command (30_encoding.md R60). -/
def State.respond (s : State) (v : Word) : State := { s with rsplog := s.rsplog ++ [v] }

/-- A one-bit result as a response word (30_encoding.md R60). -/
def bitWord (b : Bool) : Word := if b then 1#32 else 0#32

/-- `rst`: every element of the block takes its reset value; the transport's bytes and output stay (70_reset_and_hazards.md
R128, 10_state.md R39). The storage is left with nothing listed: DESIGN CHOICE (assumption 9). -/
def State.assertReset (s : State) : State :=
  { s with
    store := [], head := 0, tail := 0, valid := false, seq := .idle, retries := 0, reads := 0 }

end Sys2Proof.Machine
end

