-- ==== Sys2Proof/Machine/Operands.lean ====
section
/-! DEFINITION. The operand forms of the accessor commands: a payload offset, and the payload byte it names
(30_encoding.md R59, 43_accessors.md R98). -/

namespace Sys2Proof.Machine

/-- An operand field as a payload offset: unsigned, not scaled, not sign-extended (30_encoding.md R59). -/
def payloadOffset (i : Byte) : Nat := i.toNat

/-- `PB(i)`: the payload byte at payload offset `i`, 0 when `VALID == 0` or `i >= N` (43_accessors.md R98). -/
def State.payloadByte (s : State) (i : Nat) : Byte :=
  if s.valid = false then 0x00#8
  else if i ≥ s.params.payloadLen then 0x00#8
  else s.bufPeek (1 + i)

end Sys2Proof.Machine
end

