-- ==== Sys2Proof/Machine/Access.lean ====
section
/-! DEFINITION. The payload field multiplexer: GET_BYTE, GET_INT, GET_LONG (43_accessors.md). -/

namespace Sys2Proof.Machine

/-- GET_BYTE i (43_accessors.md R101). -/
def execGetByte (i : Byte) (s : State) : Host.Outcome State Fault Refusal :=
  .next (s.respond ((s.payloadByte (payloadOffset i)).setWidth 32))

/-- `((hi << 8) | lo) mod 2^16` (43_accessors.md R103). -/
def composeIntended (hi lo : Byte) : BitVec 16 := (hi.setWidth 16 <<< 8) ||| lo.setWidth 16

/-- `(hi << (8 + lo)) mod 2^16` (43_accessors.md R104). -/
def composeReference (hi lo : Byte) : BitVec 16 := hi.setWidth 16 <<< (8 + lo.toNat)

/-- The composition `GETINT_MODE` selects (43_accessors.md R102). -/
def composeInt (m : GetIntMode) (hi lo : Byte) : BitVec 16 :=
  match m with
  | .intended => composeIntended hi lo
  | .reference => composeReference hi lo

/-- GET_INT i, j (43_accessors.md R102). -/
def execGetInt (i j : Byte) (s : State) : Host.Outcome State Fault Refusal :=
  .next (s.respond ((composeInt s.params.getIntMode (s.payloadByte (payloadOffset i))
    (s.payloadByte (payloadOffset j))).setWidth 32))

/-- `((r << 8) | b) mod 2^W_LONG` (43_accessors.md R105). -/
def accumulate (r : Word) (b : Byte) : Word := (r <<< 8) ||| b.setWidth 32

/-- At most `fuel` passes of the loop of GET_LONG, at payload offset `k` with accumulator `r` (43_accessors.md R105). -/
def State.longLoop (s : State) (i j : Nat) : Nat → Nat → Word → Word
  | 0, _, r => r
  | fuel + 1, k, r =>
    let r' := accumulate r (s.payloadByte k)
    if k = j then r' else s.longLoop i j fuel (if i < j then k + 1 else k - 1) r'

/-- GET_LONG i, j (43_accessors.md R105). The walk visits at most 256 offsets (R105; assumption 18). -/
def execGetLong (i j : Byte) (s : State) : Host.Outcome State Fault Refusal :=
  .next (s.respond (s.longLoop (payloadOffset i) (payloadOffset j) 256 (payloadOffset i) 0#32))

end Sys2Proof.Machine
end

