-- ==== Sys2Proof/Machine/Sync.lean ====
section
/-! DEFINITION. The frame synchronizer and the XOR checksum validator (41_sync_checksum.md). -/

namespace Sys2Proof.Machine

/-- At most `fuel` passes of the loop of BUF_SYNC. -/
def State.syncLoop : Nat → State → State
  | 0, s => s
  | fuel + 1, s =>
    if s.bufEmpty = false ∧ s.bufPeek 0 ≠ s.params.marker then State.syncLoop fuel s.bufPop.2 else s

/-- BUF_SYNC(): pop while not empty and the head is not `MARKER` (41_sync_checksum.md R76). The loop runs at most
`live_count` times (R76; assumption 19). -/
def State.bufSync (s : State) : State := s.syncLoop s.liveCount

/-- CHK_XOR(): the XOR of buffer offsets `1` to `N` (41_sync_checksum.md R78). -/
def State.chkXor (s : State) : Byte :=
  (List.range' 1 s.params.payloadLen).foldl (fun x k => x ^^^ s.bufPeek k) 0x00#8

/-- The checksum byte of a candidate, at buffer offset `N + 1` (41_sync_checksum.md R79). -/
def State.checksumByte (s : State) : Byte := s.bufPeek (s.params.payloadLen + 1)

/-- CHK_OK(): the checksum byte equals CHK_XOR() (41_sync_checksum.md R79). -/
def State.chkOk (s : State) : Bool := s.chkXor == s.checksumByte

end Sys2Proof.Machine
end

