-- ==== Sys2Proof/Machine/Process.lean ====
section
/-! DEFINITION. The decode sequencer: the command PROCESS (42_decode.md R82). One call of `execProcess` is ONE step of the
sequencer, the one `SEQ` names; the command is in execution until `SEQ` is `IDLE` again, and the environment has a turn
before each step (20_memory.md R50; assumption 3). -/

namespace Sys2Proof.Machine

/-- Move the sequencer. -/
def State.goto (s : State) (q : Seq) : State := { s with seq := q }

/-- S1: pop the previous frame's marker if `VALID == 1` (42_decode.md R83). -/
def State.stepS1 (s : State) : State :=
  (if s.valid then s.bufPop.2 else s).goto .s2

/-- S2: clear `VALID` and the counters (42_decode.md R84). -/
def State.stepS2 (s : State) : State :=
  { s with valid := false, retries := 0, reads := 0, seq := .s3 }

/-- S3: BUF_SYNC (42_decode.md R82). -/
def State.stepS3 (s : State) : State := s.bufSync.goto .s4

/-- What the fill does with a byte it has read (42_decode.md R82 step S4). -/
def State.fillWith (s : State) (b : Byte) : State :=
  ({ s with reads := s.reads + 1 }.bufPush b).bufSync

/-- S4: one check of the fill: read, push and synchronize one byte, or end the fill (42_decode.md R85). -/
def State.stepS4 (s : State) : State :=
  if s.bufFull = false ∧ s.mayRead = true then
    match s.rxTake with
    | some (b, s') => s'.fillWith b
    | none => s.goto .s5
  else s.goto .s5

/-- S5 after a mismatch: pop the false marker; end after BUF_SYNC at `RETRY_LIMIT`, else retry from S3 (42_decode.md R87,
R89). -/
def State.mismatch (s : State) : State :=
  if s.retriesSpent then s.bufPop.2.bufSync.goto .s6
  else { s.bufPop.2 with retries := s.retries + 1, seq := .s3 }

/-- S5: no candidate, or the first acknowledgment byte of a match, or a mismatch (42_decode.md R86, R87, R88). -/
def State.stepS5 (s : State) : State :=
  if s.bufFull = false then s.goto .s6
  else if s.chkOk then (s.txWrite s.params.ackMarker).goto .s5Ack
  else s.mismatch

/-- S5 of a match, after its first write: the checksum byte just validated, and `VALID` (42_decode.md R86). -/
def State.stepS5Ack (s : State) : State :=
  { s.txWrite s.checksumByte with valid := true, seq := .s6 }

/-- S6: the command ends with the response `VALID` (42_decode.md R82, 30_encoding.md R60). -/
def State.stepS6 (s : State) : State := (s.goto .idle).respond (bitWord s.valid)

/-- PROCESS: accepted when `SEQ` is `IDLE`, then one step of the sequencer a call (42_decode.md R81, R82). -/
def execProcess (s : State) : Host.Outcome State Fault Refusal :=
  match s.seq with
  | .idle => .next (s.goto .s1)
  | .s1 => .next s.stepS1
  | .s2 => .next s.stepS2
  | .s3 => .next s.stepS3
  | .s4 => .next s.stepS4
  | .s5 => .next s.stepS5
  | .s5Ack => .next s.stepS5Ack
  | .s6 => .next s.stepS6

end Sys2Proof.Machine
end

