-- ==== Sys2Proof/Machine/Query.lean ====
section
/-! DEFINITION. The query commands and the reserved command words (44_queries.md). -/

namespace Sys2Proof.Machine

/-- COUNT (44_queries.md R106). -/
def execCount (s : State) : Host.Outcome State Fault Refusal :=
  .next (s.respond (BitVec.ofNat 32 s.liveCount))

/-- IS_FULL (44_queries.md R107). -/
def execIsFull (s : State) : Host.Outcome State Fault Refusal :=
  .next (s.respond (bitWord s.bufFull))

/-- IS_EMPTY (44_queries.md R108). -/
def execIsEmpty (s : State) : Host.Outcome State Fault Refusal :=
  .next (s.respond (bitWord s.bufEmpty))

/-- A reserved command word: no state change, no transport access, response 0 (44_queries.md R109). -/
def execReserved (_word : Word) (s : State) : Host.Outcome State Fault Refusal :=
  .next (s.respond 0#32)

end Sys2Proof.Machine
end

