-- ==== Sys2Proof/Machine/Dispatch.lean ====
section
/-! DEFINITION. The meaning of each command, one arm per constructor. -/

namespace Sys2Proof.Machine

def exec (i : Instr) (s : State) : Host.Outcome State Fault Refusal :=
  match i with
  | .process => Sys2Proof.Machine.execProcess s
  | .getByte a => Sys2Proof.Machine.execGetByte a s
  | .getInt a b => Sys2Proof.Machine.execGetInt a b s
  | .getLong a b => Sys2Proof.Machine.execGetLong a b s
  | .count => Sys2Proof.Machine.execCount s
  | .isFull => Sys2Proof.Machine.execIsFull s
  | .isEmpty => Sys2Proof.Machine.execIsEmpty s
  | .reserved w => Sys2Proof.Machine.execReserved w s

end Sys2Proof.Machine
end

