-- ==== Sys2Proof/WellFormed.lean ====
section
/-! DEFINITION. Which commands are well formed: a reserved command carries a word that the encoding reserves. The operand
fields need no check: every 8-bit offset is a legal operand (30_encoding.md R59). -/

namespace Sys2Proof

/-- `OP`, bits 31:28 of a command word, as a number (30_encoding.md R58). -/
def Word.op (w : Word) : Nat := w.toNat / 2 ^ 28

/-- `RSV`, bits 27:16 of a command word, as a number (30_encoding.md R58). -/
def Word.rsv (w : Word) : Nat := w.toNat / 2 ^ 16 % 2 ^ 12

/-- A command word is reserved when `OP` is 0x0 or 0x8 to 0xF, or when `RSV` is not zero (30_encoding.md R62). -/
def Word.isReserved (w : Word) : Bool := Word.op w == 0 || Word.op w ≥ 8 || Word.rsv w != 0

/-- A command that some word encodes. -/
def Instr.wellFormed : Instr → Bool
  | .process => true
  | .getByte _ => true
  | .getInt _ _ => true
  | .getLong _ _ => true
  | .count => true
  | .isFull => true
  | .isEmpty => true
  | .reserved w => Word.isReserved w

end Sys2Proof
end

