-- ==== Sys2Proof/Decode.lean ====
section
/-! DEFINITION. The command word: its fields, the decoder and, after it, the encoder (30_encoding.md sections 2 and 4), and
the rows of spec/opcode_table.json. Every 32-bit word decodes: a word that is no command is a reserved word, which has a
meaning of its own (30_encoding.md R62). -/

namespace Sys2Proof

/-- `OP`, bits 31:28 (30_encoding.md R58). -/
def opField (w : Word) : BitVec 4 := w.extractLsb' 28 4

/-- `RSV`, bits 27:16 (30_encoding.md R58). -/
def rsvField (w : Word) : BitVec 12 := w.extractLsb' 16 12

/-- `I`, bits 15:8 (30_encoding.md R59). -/
def iField (w : Word) : Byte := w.extractLsb' 8 8

/-- `J`, bits 7:0 (30_encoding.md R59). -/
def jField (w : Word) : Byte := w.extractLsb' 0 8

/-- The command a word selects, from `OP` and `RSV` alone (30_encoding.md R58, R61, R62). A command takes the operand
fields it has and ignores the others (R59). -/
def decode (w : Word) : Instr :=
  if rsvField w = 0#12 then
    match (opField w).toNat with
    | 1 => .process
    | 2 => .getByte (iField w)
    | 3 => .getInt (iField w) (jField w)
    | 4 => .getLong (iField w) (jField w)
    | 5 => .count
    | 6 => .isFull
    | 7 => .isEmpty
    | _ => .reserved w
  else .reserved w

/-- The word `OP`, `RSV = 0`, `I`, `J` (30_encoding.md section 2). -/
def commandWord (op : BitVec 4) (i j : Byte) : Word := op ++ 0#12 ++ i ++ j

/-- A word of a well-formed command. The fields a command ignores are written 0 (DESIGN CHOICE, assumption 20). -/
def encode : Instr → Word
  | .process => commandWord 1#4 0#8 0#8
  | .getByte i => commandWord 2#4 i 0#8
  | .getInt i j => commandWord 3#4 i j
  | .getLong i j => commandWord 4#4 i j
  | .count => commandWord 5#4 0#8 0#8
  | .isFull => commandWord 6#4 0#8 0#8
  | .isEmpty => commandWord 7#4 0#8 0#8
  | .reserved w => w

/-- The command word of an instruction of `nbits` bits numbered as spec/opcode_table.json numbers them, the bits above
`nbits` zero; every instruction of the block is one 32-bit word (30_encoding.md R58). -/
def tableWord (nbits w : Nat) : Word := BitVec.ofNat 32 (w % 2 ^ nbits)

/-- What the decoder reads from an instruction whose bits are `w`; none for bits that no 32-bit word holds. -/
def decodeTableWord (nbits w : Nat) : Option Instr :=
  if nbits ≤ 32 then some (decode (tableWord nbits w)) else none

/-- `match` and `mask` of the row of spec/opcode_table.json that selects a command; a reserved word is selected by the rows
of `reservedRows`. -/
def definedRow : Instr → Option (Word × Word)
  | .process => some (0x10000000#32, 0xFFFF0000#32)
  | .getByte _ => some (0x20000000#32, 0xFFFF0000#32)
  | .getInt _ _ => some (0x30000000#32, 0xFFFF0000#32)
  | .getLong _ _ => some (0x40000000#32, 0xFFFF0000#32)
  | .count => some (0x50000000#32, 0xFFFF0000#32)
  | .isFull => some (0x60000000#32, 0xFFFF0000#32)
  | .isEmpty => some (0x70000000#32, 0xFFFF0000#32)
  | .reserved _ => none

/-- The rows of spec/opcode_table.json with a command, in its order: `match`, `mask` (30_encoding.md section 4). -/
def definedRows : List (Word × Word) :=
  [(0x10000000#32, 0xFFFF0000#32), (0x20000000#32, 0xFFFF0000#32), (0x30000000#32, 0xFFFF0000#32),
   (0x40000000#32, 0xFFFF0000#32), (0x50000000#32, 0xFFFF0000#32), (0x60000000#32, 0xFFFF0000#32),
   (0x70000000#32, 0xFFFF0000#32)]

/-- The fourteen RESERVED rows of spec/opcode_table.json, in its order: `match`, `mask` (30_encoding.md section 4). -/
def reservedRows : List (Word × Word) :=
  [(0x00000000#32, 0xF0000000#32), (0x80000000#32, 0x80000000#32)] ++
  (List.range 12).map (fun b => (1#32 <<< (16 + b), 1#32 <<< (16 + b)))

/-- A word matches a row when its bits under the row's mask are the row's match. -/
def matchesRow (w : Word) (row : Word × Word) : Bool := w &&& row.2 == row.1

end Sys2Proof
end

