-- ==== Sys2Proof/Machine/Ports.lean ====
section
/-! DEFINITION. The ports: the environment's turn before each move of the block, and which move the block then makes
(30_encoding.md R57, 60_exceptions.md sections 2, 5 and 6). -/

namespace Sys2Proof.Machine

/-- What the environment does next: the script's first turn, and beyond the script the free value (assumption 4). -/
def State.nextTurn (s : State) : Turn := s.script.headD (Config.envTurn s.clock)

/-- The environment has its turn: the arriving bytes become readable, after those already readable (10_state.md R38,
60_exceptions.md R126). -/
def State.takeTurn (s : State) : State :=
  { s with rxq := s.rxq ++ s.nextTurn.rx, script := s.script.tail, clock := s.clock + 1 }

/-- The move of a step: a reset wins over everything (60_exceptions.md R115); else a PROCESS in execution goes on, and the
command port accepts nothing (R121); else the command word the host issues is decoded and runs; else the block stays idle
(42_decode.md R93). -/
def State.selectMove (s : State) : Move :=
  if ¬ s.params.Legal then .refuse .noInstance
  else if s.nextTurn.rst then .settle s.takeTurn.assertReset
  else match s.seq, s.nextTurn.cmd with
    | .idle, none => .settle s.takeTurn
    | .idle, some w => .run (decode w) s.takeTurn
    | _, none => .run .process s.takeTurn
    | _, some _ => .refuse .commandWhileBusy

/-- The host issues this command word at the next turn, with the block at rest (assumption 12). -/
def State.withCommand (s : State) (w : Word) : State :=
  { s with script := Turn.issue w :: s.script, seq := .idle }

end Sys2Proof.Machine
end

