-- ==== Sys2Proof/Machine/Step.lean ====
section
/-! DEFINITION. One step of the machine: the environment's turn, then one move of the block. -/

namespace Sys2Proof.Machine

/-- One step. -/
def step (s : State) : Host.Outcome State Fault Refusal :=
  match s.selectMove with
  | .refuse r => .refused r
  | .settle t => .next t
  | .run i t => exec i t

/-- `s` with the command word of a row of spec/opcode_table.json issued at the next turn (assumption 12). -/
def State.withFetchWord (s : State) (nbits w : Nat) : State := s.withCommand (tableWord nbits w)

end Sys2Proof.Machine
end

