-- ==== Sys2Proof/Safety.lean ====
section
/-! DEFINITION. The terms claims use: the invariant of the block (10_state.md section 3), the live bytes as a list, frames on
the wire (30_encoding.md R64), the environment's turns ahead, the run of one PROCESS command, and the relations two runs are
compared by. -/

namespace Sys2Proof.Machine

/-! ### The buffer as a list, and frames -/

/-- The live bytes from the head, offset 0 first (10_state.md R26). -/
def State.live (s : State) : List Byte := (List.range s.liveCount).map s.bufPeek

/-- The payload of a resident candidate: offsets `1` to `N` (20_memory.md R44). -/
def State.payload (s : State) : List Byte := (List.range' 1 s.params.payloadLen).map s.bufPeek

/-- The XOR of a list of bytes (30_encoding.md R64). -/
def xorBytes (bs : List Byte) : Byte := bs.foldl (fun x b => x ^^^ b) 0x00#8

/-- A frame on the wire: marker, payload, checksum (30_encoding.md R64). -/
def frameOf (marker : Byte) (payload : List Byte) : List Byte := marker :: payload ++ [xorBytes payload]

/-- What BUF_SYNC keeps of a list of live bytes: it drops the bytes before the first marker (41_sync_checksum.md R76). -/
def syncList (marker : Byte) (bs : List Byte) : List Byte := bs.dropWhile (fun b => b != marker)

/-- The payload offsets of the walk from `i` to `j`, both included (43_accessors.md R105). -/
def walk (i j : Nat) : List Nat :=
  if i ≤ j then (List.range (j - i + 1)).map (fun d => i + d) else (List.range (i - j + 1)).map (fun d => i - d)

/-! ### The invariant -/

/-- `k` reads or retries are within the limit (00_scope.md R13, R14). -/
def permits (l : Limit) (k : Nat) : Bool :=
  match l with
  | .unbounded => true
  | .atMost n => k ≤ n

/-- The cursors are in range (10_state.md R24, R33) and the storage is in canonical form within `0..C-1`. -/
def State.placed (s : State) : Bool :=
  s.head < s.capacity && s.tail < s.capacity && Memory.wf s.store && s.store.all (fun c => c.1 < s.capacity)

/-- The buffer is empty or its head byte is `MARKER` (10_state.md R34). -/
def State.synced (s : State) : Bool := s.bufEmpty || s.bufPeek 0 == s.params.marker

/-- `VALID` exactly when the buffer is full, and then the candidate passes (10_state.md R35). -/
def State.validIsFull (s : State) : Bool := s.valid == s.bufFull && (!s.valid || s.chkOk)

/-- The counters of a PROCESS in execution are within its limits (00_scope.md R13, R14). -/
def State.withinLimits (s : State) : Bool :=
  permits s.params.retryLimit s.retries && permits s.params.drainLimit s.reads

/-- What holds before the step `SEQ` names. -/
def State.seqInv (s : State) : Bool :=
  match s.seq with
  | .idle => s.synced && s.validIsFull
  | .s1 => s.synced && s.validIsFull
  | .s2 => true
  | .s3 => !s.valid && s.withinLimits
  | .s4 => !s.valid && s.withinLimits && s.synced
  | .s5 => !s.valid && s.withinLimits && s.synced
  | .s5Ack => !s.valid && s.withinLimits && s.synced && s.bufFull && s.chkOk
  | .s6 => s.withinLimits && s.synced && s.validIsFull

/-- The invariant of the block: 10_state.md R33 at every step, R34 and R35 at rest, and what each step of 42_decode.md R82
finds. -/
abbrev State.Inv (s : State) : Prop := s.placed = true ∧ s.seqInv = true

/-! ### The environment ahead -/

/-- The environment's turn `k` steps ahead. -/
def State.turnAt (s : State) (k : Nat) : Turn := (s.script[k]?).getD (Config.envTurn (s.clock + k))

/-- `n` steps of the machine. -/
def runFor (n : Nat) (s : State) : Host.Outcome State Fault Refusal := Host.Core.run Sys2Proof.core n s

/-- Nothing happens outside from the turn `a` ahead up to, not including, the turn `b` ahead. -/
abbrev State.QuietFor (s : State) (a b : Nat) : Prop := ∀ k, k < b → a ≤ k → s.turnAt k = Turn.quiet

/-- The host neither resets nor offers a word from the turn `a` ahead up to, not including, the turn `b` ahead; bytes may
arrive. -/
abbrev State.HostWaits (s : State) (a b : Nat) : Prop :=
  ∀ k, k < b → a ≤ k → (s.turnAt k).rst = false ∧ (s.turnAt k).cmd = none

/-- At rest, with the host issuing PROCESS at the next turn and no reset. -/
abbrev State.StartsProcess (s : State) : Prop :=
  s.params.Legal ∧ s.seq = .idle ∧ s.nextTurn.rst = false ∧ s.nextTurn.cmd.map decode = some .process

/-- The block in execution of one PROCESS command begun at `s`: after some steps without a reset, during which the bytes
`arrived` became readable, it is at the state of the last index. The command has ended when that state is at rest. -/
inductive ProcessRun (s : State) : (arrived : List Byte) → State → Prop where
  | accept (t : State) : s.StartsProcess → step s = .next t → ProcessRun s s.nextTurn.rx t
  | advance (arrived : List Byte) (t u : State) : ProcessRun s arrived t → t.seq ≠ .idle → t.nextTurn.rst = false →
      step t = .next u → ProcessRun s (arrived ++ t.nextTurn.rx) u

/-! ### Relations between two runs -/

/-- Two states that differ at most in storage outside the live region (10_state.md R26). -/
def State.SameButDeadStorage (s t : State) : Prop := t = { s with store := t.store } ∧ s.live = t.live

/-- The outcomes of two steps are of one kind, the next states related by `R`, the refusals equal. -/
def outcomesRelated (R : State → State → Prop) : Host.Outcome State Fault Refusal → Host.Outcome State Fault Refusal → Prop
  | .next s, .next t => R s t
  | .refused r, .refused q => r = q
  | _, _ => False

/-- The parameters with both limits `UNBOUNDED` (00_scope.md R13, R14). -/
def unlimited (p : Params) : Params := { p with retryLimit := .unbounded, drainLimit := .unbounded }

/-- The parameters with another `XPORT_CFG` (00_scope.md R16). -/
def withXport (p : Params) (x : Nat) : Params := { p with xportCfg := x }

end Sys2Proof.Machine
end

