-- ==== Sys2Proof/Certificates/Slice0/Obligations.lean ====
section
/-! DEFINITION. The statements for the provers. Each is about every instance (every `N`, marker, mode and limit) and every
state that meets its hypotheses; each docstring says which sentence of spec/ it formalises. -/

open Sys2Proof Sys2Proof.Machine

/-! ### Encoding (30_encoding.md) -/

/-- The encoding examples of 30_encoding.md section 4 and of 95_test_vectors.md section 2.7 decode as written there. -/
def Obligations.DecodeSampleWords : Prop :=
  decode 0x10000000#32 = .process ∧ decode 0x1000FFFF#32 = .process ∧
  decode 0x20000200#32 = .getByte 2#8 ∧ decode 0x200002FF#32 = .getByte 2#8 ∧
  decode 0x30000001#32 = .getInt 0#8 1#8 ∧ decode 0x3000FF00#32 = .getInt 255#8 0#8 ∧
  decode 0x40000003#32 = .getLong 0#8 3#8 ∧ decode 0x40000300#32 = .getLong 3#8 0#8 ∧
  decode 0x50000000#32 = .count ∧ decode 0x60000000#32 = .isFull ∧ decode 0x70000000#32 = .isEmpty ∧
  decode 0x10010000#32 = .reserved 0x10010000#32 ∧ decode 0x08000000#32 = .reserved 0x08000000#32 ∧
  decode 0x90000000#32 = .reserved 0x90000000#32

/-- Decoding the word a well-formed command is encoded as gives the command back, with every operand at every value. -/
def Obligations.DecodeEncodeAgree : Prop :=
  ∀ i : Instr, i.wellFormed = true → decode (encode i) = i

/-- 30_encoding.md R61: with `RSV == 0`, the word selects the command whose `OP` it carries. -/
def Obligations.OpcodeSelectsCommand : Prop :=
  ∀ w : Word, Word.rsv w = 0 →
    (Word.op w = 1 → decode w = .process) ∧
    (Word.op w = 2 → decode w = .getByte (BitVec.ofNat 8 (w.toNat / 256))) ∧
    (Word.op w = 3 → decode w = .getInt (BitVec.ofNat 8 (w.toNat / 256)) (BitVec.ofNat 8 w.toNat)) ∧
    (Word.op w = 4 → decode w = .getLong (BitVec.ofNat 8 (w.toNat / 256)) (BitVec.ofNat 8 w.toNat)) ∧
    (Word.op w = 5 → decode w = .count) ∧
    (Word.op w = 6 → decode w = .isFull) ∧
    (Word.op w = 7 → decode w = .isEmpty)

/-- 30_encoding.md R62: a word is reserved exactly when `OP` is 0x0 or 0x8 to 0xF or `RSV != 0`, and a reserved word is no
error: it changes no state and its response is 0. -/
def Obligations.ReservedWordsExecuteAsNothing : Prop :=
  ∀ w : Word,
    (decode w = .reserved w ↔ (Word.op w = 0 ∨ 8 ≤ Word.op w ∨ Word.rsv w ≠ 0)) ∧
    (decode w = .reserved w → ∀ s : State, exec (decode w) s = .next { s with rsplog := s.rsplog ++ [0#32] })

/-- 30_encoding.md R59: the operands are the unsigned numbers of bits 15:8 and 7:0, and a command ignores the fields it does
not take. -/
def Obligations.OperandFieldsUnsignedOrIgnored : Prop :=
  (∀ (w : Word) (i : Byte), decode w = .getByte i → i.toNat = w.toNat / 256 % 256) ∧
  (∀ (w : Word) (i j : Byte), decode w = .getInt i j ∨ decode w = .getLong i j →
    i.toNat = w.toNat / 256 % 256 ∧ j.toNat = w.toNat % 256) ∧
  (∀ (w v : Word) (i : Byte), v.toNat / 256 = w.toNat / 256 → decode w = .getByte i → decode v = .getByte i) ∧
  (∀ w v : Word, v.toNat / 65536 = w.toNat / 65536 →
    (decode w = .process → decode v = .process) ∧ (decode w = .count → decode v = .count) ∧
    (decode w = .isFull → decode v = .isFull) ∧ (decode w = .isEmpty → decode v = .isEmpty))

/-- 30_encoding.md section 4: "Every 32-bit word matches exactly one defined row or at least one reserved row, never both",
a sentence the spec marks as derived. -/
def Obligations.TableRowsPartitionWords : Prop :=
  ∀ w : Word,
    ((definedRows.filter (matchesRow w)).length = 1 ∧ reservedRows.any (matchesRow w) = false) ∨
    (definedRows.filter (matchesRow w) = [] ∧ reservedRows.any (matchesRow w) = true)

/-! ### Steps (60_exceptions.md, 70_reset_and_hazards.md) -/

/-- A block at rest that is offered a command word runs the command the word decodes to, after the environment's turn: the
arriving bytes are readable, the turn is taken (assumptions 4, 10). -/
def Obligations.StepRunsIssuedCommand : Prop :=
  ∀ (s : State) (w : Word), s.params.Legal → s.seq = .idle → s.nextTurn.rst = false → s.nextTurn.cmd = some w →
    step s = exec (decode w) { s with rxq := s.rxq ++ s.nextTurn.rx, script := s.script.tail, clock := s.clock + 1 }

/-- A PROCESS in execution goes on by one step of the sequencer, after the environment's turn: bytes may become readable
between any two steps (20_memory.md R50; assumption 3). -/
def Obligations.StepContinuesProcess : Prop :=
  ∀ s : State, s.params.Legal → s.seq ≠ .idle → s.nextTurn.rst = false → s.nextTurn.cmd = none →
    step s = exec .process { s with rxq := s.rxq ++ s.nextTurn.rx, script := s.script.tail, clock := s.clock + 1 }

/-- 70_reset_and_hazards.md R128 with the values of 10_state.md R39: `rst`, at any time, gives every element its reset value,
with no response, and touches neither the readable bytes nor the output. -/
def Obligations.ResetPinAtAnyTime : Prop :=
  ∀ s : State, s.params.Legal → s.nextTurn.rst = true →
    ∃ t, step s = .next t ∧ t.head = 0 ∧ t.tail = 0 ∧ t.valid = false ∧ t.seq = .idle ∧ t.retries = 0 ∧ t.reads = 0 ∧
      t.liveCount = 0 ∧ t.phase = some .empty ∧
      t.rxq = s.rxq ++ s.nextTurn.rx ∧ t.txlog = s.txlog ∧ t.rsplog = s.rsplog ∧ t.params = s.params

/-- 10_state.md R39: after reset the cursors and counters are 0, `VALID` is 0, `SEQ` is `IDLE`, the buffer is empty and the
phase is Empty. -/
def Obligations.ResetStateValues : Prop :=
  State.reset.head = 0 ∧ State.reset.tail = 0 ∧ State.reset.valid = false ∧ State.reset.seq = .idle ∧
  State.reset.retries = 0 ∧ State.reset.reads = 0 ∧ State.reset.liveCount = 0 ∧ State.reset.phase = some .empty

/-- 42_decode.md R93: between commands the block reads no byte from the transport, writes none and changes no state. -/
def Obligations.IdleBlockDoesNothing : Prop :=
  ∀ s : State, s.params.Legal → s.seq = .idle → s.nextTurn.rst = false → s.nextTurn.cmd = none →
    step s = .next { s with rxq := s.rxq ++ s.nextTurn.rx, script := s.script.tail, clock := s.clock + 1 }

/-- The model's two refusals, and no other stop: no instance is elaborated for this `N` (93_implementation_defined.md I10,
assumption 6), or the host offers a word while a command executes (I13, assumption 5). -/
def Obligations.StepRefusesOnlyImpossibleMoves : Prop :=
  ∀ s : State,
    (step s = .refused .noInstance ↔ ¬ s.params.Legal) ∧
    (step s = .refused .commandWhileBusy ↔
      s.params.Legal ∧ s.nextTurn.rst = false ∧ s.seq ≠ .idle ∧ s.nextTurn.cmd ≠ none) ∧
    ((∃ t, step s = .next t) ↔
      s.params.Legal ∧ (s.nextTurn.rst = true ∨ s.seq = .idle ∨ s.nextTurn.cmd = none))

/-- 60_exceptions.md R110: no command raises, traps, stops or reports an error; every one answers a next state. -/
def Obligations.EveryCommandAnswers : Prop :=
  ∀ (i : Instr) (s : State), ∃ t, exec i s = .next t

/-! ### The circular buffer controller (40_buffer.md) -/

/-- 40_buffer.md R69: BUF_PUSH writes `STORE[TAIL]` and advances `TAIL` modulo `C` when not full, and does nothing when
full. -/
def Obligations.PushAppendsOrDrops : Prop :=
  ∀ (s : State) (b : Byte), s.placed = true →
    (s.liveCount = s.capacity - 1 → s.bufPush b = s) ∧
    (s.liveCount ≠ s.capacity - 1 →
      s.bufPush b = { s with store := (s.bufPush b).store, tail := (s.tail + 1) % s.capacity } ∧
      (s.bufPush b).storeRead s.tail = b ∧
      (∀ a, a ≠ s.tail → (s.bufPush b).storeRead a = s.storeRead a) ∧
      (s.bufPush b).liveCount = s.liveCount + 1 ∧ (s.bufPush b).live = s.live ++ [b])

/-- 40_buffer.md R70: BUF_POP returns the head byte and advances `HEAD` modulo `C`, or returns 0 and changes nothing when
empty. -/
def Obligations.PopRemovesHead : Prop :=
  ∀ s : State, s.placed = true →
    (s.liveCount = 0 → s.bufPop = (0x00#8, s)) ∧
    (s.liveCount ≠ 0 →
      s.bufPop = (s.storeRead s.head, { s with head := (s.head + 1) % s.capacity }) ∧
      s.bufPop.2.liveCount + 1 = s.liveCount ∧ s.live = s.bufPop.1 :: s.bufPop.2.live)

/-- 40_buffer.md R71: BUF_PEEK returns 0 outside the live region and else `STORE[(HEAD + k) mod C]`. -/
def Obligations.PeekReadsLiveRegion : Prop :=
  ∀ (s : State) (k : Nat),
    (s.liveCount ≤ k → s.bufPeek k = 0x00#8) ∧
    (k < s.liveCount → s.bufPeek k = s.storeRead ((s.head + k) % s.capacity))

/-- 40_buffer.md R75, which the spec marks as derived: inside PROCESS no pop meets an empty buffer and no push a full one. S1
pops only with live bytes; S5 moves `HEAD` only from a full buffer; S4 takes a byte to push only with room for it; and each
pass of BUF_SYNC pops only a live byte and stops at an empty buffer, on every state whose cursors are in range, which the
state before a step, the state after a push (S4) and the state after a pop (S5 at the retry limit) are. -/
def Obligations.SequencerNeverPushesFullNorPopsEmpty : Prop :=
  ∀ s t : State, s.Inv → exec .process s = .next t →
    (s.seq = .s1 → s.valid = true → s.liveCount ≠ 0) ∧
    (s.seq = .s5 → t.head ≠ s.head → s.liveCount = s.capacity - 1) ∧
    (t.rxq ≠ s.rxq → s.liveCount < s.capacity - 1 ∧ s.rxq ≠ []) ∧
    (s.placed = true ∧ s.bufPop.2.placed = true ∧ ∀ b : Byte, (s.bufPush b).placed = true) ∧
    (∀ (u : State) (fuel : Nat), u.placed = true →
      (u.liveCount ≠ 0 ∧ u.bufPeek 0 ≠ u.params.marker →
        u.syncLoop (fuel + 1) = u.bufPop.2.syncLoop fuel ∧ u.bufPop.2.placed = true ∧
          u.bufPop.2.liveCount + 1 = u.liveCount) ∧
      (u.liveCount = 0 ∨ u.bufPeek 0 = u.params.marker → u.syncLoop (fuel + 1) = u))

/-! ### The frame synchronizer and the checksum validator (41_sync_checksum.md) -/

/-- 41_sync_checksum.md R76: BUF_SYNC discards exactly the live bytes before the first `MARKER`, all of them when there is
none, by advancing `HEAD` once for each; after it the buffer is empty or its head byte is `MARKER`. -/
def Obligations.SyncDiscardsUpToMarker : Prop :=
  ∀ s : State, s.placed = true →
    s.bufSync =
      { s with head := (s.head + (s.live.takeWhile (fun b => b != s.params.marker)).length) % s.capacity } ∧
    s.bufSync.live = s.live.dropWhile (fun b => b != s.params.marker) ∧
    (s.bufSync.liveCount = 0 ∨ s.bufSync.bufPeek 0 = s.params.marker)

/-- 41_sync_checksum.md R77, which the spec marks as derived: on a synchronized buffer with room, a push and then BUF_SYNC
discard a byte other than `MARKER` pushed into an empty buffer, and otherwise append it and leave the head where it is. -/
def Obligations.PushThenSyncKeepsHead : Prop :=
  ∀ (s : State) (b : Byte), s.placed = true → s.synced = true → s.bufFull = false →
    (s.liveCount = 0 → b ≠ s.params.marker → (s.bufPush b).bufSync.liveCount = 0) ∧
    (s.liveCount ≠ 0 ∨ b = s.params.marker →
      (s.bufPush b).bufSync.live = s.live ++ [b] ∧ (s.bufPush b).bufSync.head = s.head)

/-- 41_sync_checksum.md R78 and R79: CHK_XOR is the XOR of buffer offsets 1 to `N`, and CHK_OK compares it with offset
`N + 1`. -/
def Obligations.ChecksumIsXorOfPayload : Prop :=
  ∀ s : State, s.chkXor = xorBytes ((List.range s.params.payloadLen).map (fun i => s.bufPeek (1 + i))) ∧
    (s.chkOk = true ↔
      xorBytes ((List.range s.params.payloadLen).map (fun i => s.bufPeek (1 + i))) = s.bufPeek (s.params.payloadLen + 1))

/-- 41_sync_checksum.md R80: a candidate built as `MARKER`, payload, XOR passes; flipping one bit of one payload byte or of
the checksum byte of a candidate that passes makes it fail; two flips at the same bit position cancel, which the spec marks as
derived from R78 and R79; the marker byte is not part of the check. -/
def Obligations.ChecksumDetectsOneBit : Prop :=
  (∀ (s : State) (p : List Byte), p.length = s.params.payloadLen → s.live = frameOf s.params.marker p →
    s.chkOk = true) ∧
  (∀ (s t : State) (k bit : Nat), s.bufFull = true → s.chkOk = true → 1 ≤ k → k ≤ s.params.payloadLen + 1 → bit < 8 →
    t.params = s.params → t.live = s.live.set k (s.bufPeek k ^^^ (1#8 <<< bit)) → t.chkOk = false) ∧
  (∀ (s t : State) (k l bit : Nat), s.bufFull = true → s.chkOk = true → 1 ≤ k → k < l → l ≤ s.params.payloadLen + 1 →
    bit < 8 → t.params = s.params →
    t.live = (s.live.set k (s.bufPeek k ^^^ (1#8 <<< bit))).set l (s.bufPeek l ^^^ (1#8 <<< bit)) → t.chkOk = true) ∧
  (∀ (s t : State) (b : Byte), t.params = s.params → t.live = s.live.set 0 b → t.chkOk = s.chkOk)

/-! ### The decode sequencer: the steps of PROCESS (42_decode.md) -/

/-- PROCESS at rest is accepted: `SEQ` goes from `IDLE` to `S1` and nothing else changes (42_decode.md R82, "`SEQ` holds the
step label while the step executes"; assumption 3). -/
def Obligations.ProcessIsAccepted : Prop :=
  ∀ s : State, s.seq = .idle → exec .process s = .next { s with seq := .s1 }

/-- Step S1 (42_decode.md R83): with `VALID` set exactly one byte is popped, else nothing. -/
def Obligations.ProcessPopsOneOldByte : Prop :=
  ∀ s : State, s.Inv → s.seq = .s1 →
    (s.valid = true → ∃ t, exec .process s = .next t ∧
      t = { s with head := (s.head + 1) % s.capacity, seq := .s2 } ∧ t.live = s.live.tail ∧
      t.liveCount + 1 = s.liveCount) ∧
    (s.valid = false → exec .process s = .next { s with seq := .s2 })

/-- Step S2 (42_decode.md R84): `VALID` is cleared, so that every accessor reads 0, and the counters start at 0. -/
def Obligations.ProcessClearsValid : Prop :=
  ∀ s : State, s.seq = .s2 →
    ∃ t, exec .process s = .next t ∧ t = { s with valid := false, retries := 0, reads := 0, seq := .s3 } ∧
      ∀ i j : Byte,
        exec (.getByte i) t = .next { t with rsplog := t.rsplog ++ [0#32] } ∧
        exec (.getInt i j) t = .next { t with rsplog := t.rsplog ++ [0#32] } ∧
        exec (.getLong i j) t = .next { t with rsplog := t.rsplog ++ [0#32] }

/-- Step S3 (42_decode.md R82): BUF_SYNC and nothing else. -/
def Obligations.ProcessSynchronizes : Prop :=
  ∀ s : State, s.Inv → s.seq = .s3 →
    ∃ t, exec .process s = .next t ∧ t = { s with head := t.head, seq := .s4 } ∧
      t.live = s.live.dropWhile (fun b => b != s.params.marker)

/-- Step S4 (42_decode.md R85): one check of the fill; that one pass is one step of the machine is the model's reading
(assumption 3). A readable byte is read, pushed and synchronized while there is room
and `DRAIN_LIMIT` is not reached; otherwise the fill ends and nothing else changes. -/
def Obligations.ProcessFillsByteByByte : Prop :=
  ∀ s : State, s.Inv → s.seq = .s4 →
    (∀ (b : Byte) (rest : List Byte), s.rxq = b :: rest → s.liveCount < s.capacity - 1 →
      (s.params.drainLimit = .unbounded ∨ ∃ l, s.params.drainLimit = .atMost l ∧ s.reads < l) →
      ∃ t, exec .process s = .next t ∧
        t = { s with store := t.store, head := t.head, tail := (s.tail + 1) % s.capacity, reads := s.reads + 1,
                     rxq := rest } ∧
        t.live = (s.live ++ [b]).dropWhile (fun x => x != s.params.marker)) ∧
    (s.rxq = [] ∨ s.liveCount = s.capacity - 1 ∨ (∃ l, s.params.drainLimit = .atMost l ∧ l ≤ s.reads) →
      exec .process s = .next { s with seq := .s5 })

/-- Step S5, no candidate (42_decode.md R88): PROCESS ends with `VALID == 0` and the buffer as the fill left it. -/
def Obligations.ProcessEndsWithoutCandidate : Prop :=
  ∀ s : State, s.Inv → s.seq = .s5 → s.liveCount < s.capacity - 1 →
    exec .process s = .next { s with seq := .s6 } ∧
    ∃ t, exec .process { s with seq := .s6 } = .next t ∧
      t = { s with seq := .idle, rsplog := s.rsplog ++ [0#32] } ∧ t.valid = false ∧
      (t.phase = some .empty ∨ t.phase = some .filling)

/-- Step S5, match (42_decode.md R86): the two acknowledgment bytes in order, `VALID`, the end with response 1; the buffer
keeps the frame and the phase is Ready. That S5 takes two steps here, with `s5Ack` between its two writes, is the model's
choice (assumption 3), not R86's. -/
def Obligations.ProcessAcknowledgesMatch : Prop :=
  ∀ s : State, s.seq = .s5 → s.liveCount = s.capacity - 1 → s.chkOk = true →
    ∃ t u v, exec .process s = .next t ∧ t = { s with txlog := s.txlog ++ [s.params.ackMarker], seq := .s5Ack } ∧
      exec .process t = .next u ∧
      u = { s with txlog := s.txlog ++ [s.params.ackMarker, s.bufPeek (s.params.payloadLen + 1)], valid := true,
                   seq := .s6 } ∧
      exec .process u = .next v ∧ v = { u with seq := .idle, rsplog := s.rsplog ++ [1#32] } ∧ v.phase = some .ready

/-- Step S5, mismatch with retries left (42_decode.md R87): exactly the head byte is popped, nothing is written, and the
command goes back to S3. -/
def Obligations.ProcessRetriesAfterMismatch : Prop :=
  ∀ s : State, s.Inv → s.seq = .s5 → s.liveCount = s.capacity - 1 → s.chkOk = false →
    (s.params.retryLimit = .unbounded ∨ ∃ r, s.params.retryLimit = .atMost r ∧ s.retries ≠ r) →
    ∃ t, exec .process s = .next t ∧
      t = { s with head := (s.head + 1) % s.capacity, retries := s.retries + 1, seq := .s3 } ∧ t.live = s.live.tail

/-- Step S5, the mismatch that finds `RETRIES == RETRY_LIMIT` (42_decode.md R89): the false marker is popped, BUF_SYNC runs
and the command ends with `VALID == 0`. -/
def Obligations.ProcessEndsAtRetryLimit : Prop :=
  ∀ (s : State) (r : Nat), s.Inv → s.seq = .s5 → s.liveCount = s.capacity - 1 → s.chkOk = false →
    s.params.retryLimit = .atMost r → s.retries = r →
    ∃ t, exec .process s = .next t ∧ t = { s with head := t.head, seq := .s6 } ∧
      t.live = s.live.tail.dropWhile (fun b => b != s.params.marker) ∧ t.valid = false ∧
      exec .process t = .next { t with seq := .idle, rsplog := t.rsplog ++ [0#32] }

/-- Step S6 (42_decode.md R82, 30_encoding.md R60): `SEQ` is `IDLE` and the response is `VALID` in bit 0. -/
def Obligations.ProcessRespondsValid : Prop :=
  ∀ s : State, s.seq = .s6 →
    exec .process s = .next { s with seq := .idle, rsplog := s.rsplog ++ [if s.valid then 1#32 else 0#32] }

/-- The frame of a step of PROCESS: every element that 42_decode.md R82 does not write in the step `SEQ` names is as before,
and so is every byte of the storage but the one BUF_PUSH writes, at the tail. R82 writes both bytes and `VALID` in its S5; that
a match splits S5 in two, so that `s5` leaves `VALID` alone and `s5Ack` writes it, is the model's choice (assumption 3). -/
def Obligations.ProcessStepFrame : Prop :=
  ∀ s t : State, exec .process s = .next t →
    t.params = s.params ∧ t.script = s.script ∧ t.clock = s.clock ∧
    (s.seq ≠ .s6 → t.rsplog = s.rsplog) ∧
    (s.seq ≠ .s5 → s.seq ≠ .s5Ack → t.txlog = s.txlog) ∧
    (s.seq ≠ .s4 → t.rxq = s.rxq ∧ t.tail = s.tail ∧ t.store = s.store) ∧
    (s.seq ≠ .s1 → s.seq ≠ .s3 → s.seq ≠ .s4 → s.seq ≠ .s5 → t.head = s.head) ∧
    (s.seq ≠ .s2 → s.seq ≠ .s5Ack → t.valid = s.valid) ∧
    (s.seq ≠ .s2 → s.seq ≠ .s5 → t.retries = s.retries) ∧
    (s.seq ≠ .s2 → s.seq ≠ .s4 → t.reads = s.reads) ∧
    (Memory.wf s.store = true → ∀ a, a ≠ s.slot s.tail → t.storeRead a = s.storeRead a)

/-! ### The payload field multiplexer (43_accessors.md) -/

/-- 43_accessors.md R101 and R98: GET_BYTE answers 0 when `VALID == 0` or `i >= N`, and else BUF_PEEK(1 + i), which at rest
is the payload byte `i` of the validated frame in the storage; nothing else changes. -/
def Obligations.GetByteReadsPayload : Prop :=
  ∀ (s : State) (i : Byte),
    (s.valid = false ∨ s.params.payloadLen ≤ i.toNat →
      exec (.getByte i) s = .next { s with rsplog := s.rsplog ++ [0#32] }) ∧
    (s.valid = true → i.toNat < s.params.payloadLen →
      exec (.getByte i) s = .next { s with rsplog := s.rsplog ++ [(s.bufPeek (1 + i.toNat)).setWidth 32] }) ∧
    (s.Inv → s.seq = .idle → s.valid = true → i.toNat < s.params.payloadLen →
      exec (.getByte i) s =
        .next { s with rsplog := s.rsplog ++ [(s.storeRead ((s.head + 1 + i.toNat) % s.capacity)).setWidth 32] })

/-- 43_accessors.md R103: in `INTENDED` mode GET_INT answers `256 * byte_i + byte_j`; nothing else changes. -/
def Obligations.GetIntIntendedComposition : Prop :=
  ∀ (s : State) (i j : Byte), s.params.getIntMode = .intended →
    ∃ v : Word, exec (.getInt i j) s = .next { s with rsplog := s.rsplog ++ [v] } ∧
      v.toNat = 256 * (s.payloadByte i.toNat).toNat + (s.payloadByte j.toNat).toNat

/-- 43_accessors.md R104: in `REFERENCE` mode GET_INT answers `(byte_i << (8 + byte_j)) mod 2^16`, which is 0 for
`byte_j >= 8`; nothing else changes. -/
def Obligations.GetIntReferenceComposition : Prop :=
  ∀ (s : State) (i j : Byte), s.params.getIntMode = .reference →
    ∃ v : Word, exec (.getInt i j) s = .next { s with rsplog := s.rsplog ++ [v] } ∧
      v.toNat = (s.payloadByte i.toNat).toNat * 2 ^ (8 + (s.payloadByte j.toNat).toNat) % 65536 ∧
      (8 ≤ (s.payloadByte j.toNat).toNat → v = 0#32)

/-- 43_accessors.md R104, the sentence the spec marks as derived: the two modes answer the same exactly when
`byte_j == 0`. -/
def Obligations.GetIntModesAgreeOnZeroLow : Prop :=
  ∀ hi lo : Byte, composeInt .intended hi lo = composeInt .reference hi lo ↔ lo = 0#8

/-- 43_accessors.md R105: GET_LONG accumulates `r * 256 + PB(k)` from 0 along the walk from `i` to `j`, modulo `2^W_LONG`;
nothing else changes. -/
def Obligations.GetLongAccumulatesWalk : Prop :=
  ∀ (s : State) (i j : Byte),
    ∃ v : Word, exec (.getLong i j) s = .next { s with rsplog := s.rsplog ++ [v] } ∧
      v.toNat = ((walk i.toNat j.toNat).map (fun k => (s.payloadByte k).toNat)).foldl (fun r b => r * 256 + b) 0
        % 2 ^ Config.wLong

/-- 43_accessors.md R105, corner cases: a walk of four or more offsets answers its last four bytes, ascending and
descending, and a walk of one offset that byte. -/
def Obligations.GetLongKeepsLastFourBytes : Prop :=
  ∀ (s : State) (i j : Byte),
    ∃ v : Word, exec (.getLong i j) s = .next { s with rsplog := s.rsplog ++ [v] } ∧
      (i.toNat + 3 ≤ j.toNat →
        v = s.payloadByte (j.toNat - 3) ++ s.payloadByte (j.toNat - 2) ++ s.payloadByte (j.toNat - 1) ++
          s.payloadByte j.toNat) ∧
      (j.toNat + 3 ≤ i.toNat →
        v = s.payloadByte (j.toNat + 3) ++ s.payloadByte (j.toNat + 2) ++ s.payloadByte (j.toNat + 1) ++
          s.payloadByte j.toNat) ∧
      (i = j → v = (s.payloadByte j.toNat).setWidth 32)

/-- 43_accessors.md R99: the accessors write no state but the response and touch no transport, and answer the same values
whatever accessors, queries and reserved words come between, until the next PROCESS. -/
def Obligations.AccessorsArePureAndRepeatable : Prop :=
  ∀ (i k : Instr) (s t : State), i ≠ .process → k ≠ .process → exec k s = .next t →
    t = { s with rsplog := t.rsplog } ∧
    ∃ v : Word, exec i s = .next { s with rsplog := s.rsplog ++ [v] } ∧
      exec i t = .next { t with rsplog := t.rsplog ++ [v] }

/-! ### The query commands and reserved words (44_queries.md) -/

/-- 44_queries.md R106 and 40_buffer.md R72: COUNT answers `(TAIL - HEAD) mod C`, the one number of `0..C-1` that leads from
the head to the tail; nothing else changes. -/
def Obligations.CountAnswersLiveCount : Prop :=
  ∀ (s : State) (n : Nat), s.params.Legal → n < s.capacity → (s.head + n) % s.capacity = s.tail % s.capacity →
    ∃ v : Word, exec .count s = .next { s with rsplog := s.rsplog ++ [v] } ∧ v.toNat = n

/-- 44_queries.md R107 and 40_buffer.md R73: IS_FULL answers 1 when `live_count == C-1`, which is when `HEAD` is
`(TAIL + 1) mod C`, and else 0; nothing else changes. -/
def Obligations.IsFullAnswers : Prop :=
  ∀ s : State, s.placed = true →
    (s.liveCount = s.capacity - 1 ↔ s.head = (s.tail + 1) % s.capacity) ∧
    (s.head = (s.tail + 1) % s.capacity → exec .isFull s = .next { s with rsplog := s.rsplog ++ [1#32] }) ∧
    (s.head ≠ (s.tail + 1) % s.capacity → exec .isFull s = .next { s with rsplog := s.rsplog ++ [0#32] })

/-- 44_queries.md R108 and 40_buffer.md R74: IS_EMPTY answers 1 when `live_count == 0`, which is when `HEAD == TAIL`, and
else 0; nothing else changes. -/
def Obligations.IsEmptyAnswers : Prop :=
  ∀ s : State, s.placed = true →
    (s.liveCount = 0 ↔ s.head = s.tail) ∧
    (s.head = s.tail → exec .isEmpty s = .next { s with rsplog := s.rsplog ++ [1#32] }) ∧
    (s.head ≠ s.tail → exec .isEmpty s = .next { s with rsplog := s.rsplog ++ [0#32] })

/-- 44_queries.md R107 and R108, corner cases: at rest IS_FULL answers `VALID`, and IS_FULL and IS_EMPTY never both
answer 1. -/
def Obligations.IsFullIsValidAtRest : Prop :=
  ∀ s : State, s.Inv →
    (s.seq = .idle → exec .isFull s = .next { s with rsplog := s.rsplog ++ [if s.valid then 1#32 else 0#32] }) ∧
    ¬ (exec .isFull s = .next { s with rsplog := s.rsplog ++ [1#32] } ∧
       exec .isEmpty s = .next { s with rsplog := s.rsplog ++ [1#32] })

/-- 44_queries.md R109: a reserved command word does nothing and answers 0. -/
def Obligations.ReservedAnswersZero : Prop :=
  ∀ (w : Word) (s : State), exec (.reserved w) s = .next { s with rsplog := s.rsplog ++ [0#32] }

/-! ### Invariants of the machine -/

/-- The state after reset meets the invariant, and its `N` is legal (00_scope.md R9). That `State.reset` stands for the instance
with `N = 3` is the model's choice (assumption 1): the spec gives `N` no default. -/
def Obligations.ResetMeetsInvariant : Prop := State.reset.Inv ∧ State.reset.params.Legal

/-- Every step keeps the invariant: 10_state.md R33 (cursors in range) always, R34 (empty or the head is `MARKER`) and R35
(`VALID` iff full, and then the candidate passes) at rest, and the storage in canonical form. What holds between the steps of
a PROCESS follows the model's division of it into steps (assumption 3). -/
def Obligations.StepKeepsInvariant : Prop :=
  ∀ s t : State, s.Inv → step s = .next t → t.Inv

/-- 10_state.md R31: the configuration is fixed at elaboration and read-only for the life of the instance. -/
def Obligations.StepKeepsParameters : Prop :=
  ∀ s t : State, step s = .next t → t.params = s.params

/-- 10_state.md R36: buffer contents, cursors and `VALID` change only inside a PROCESS command or at reset. That the step which
accepts PROCESS changes none of them is the model's reading: acceptance is a step of its own (assumption 3). -/
def Obligations.BufferChangesOnlyInProcessOrReset : Prop :=
  ∀ s t : State, step s = .next t → s.nextTurn.rst = false → s.seq = .idle →
    t.store = s.store ∧ t.head = s.head ∧ t.tail = s.tail ∧ t.valid = s.valid ∧
    (t.seq ≠ .idle → s.nextTurn.cmd.map decode = some .process)

/-- 20_memory.md R53: bytes are read in the order they arrived, each once, and (42_decode.md R82) only by the fill of a PROCESS
in execution. That a step reads at most one of them is the model's reading, one pass of the fill being one step
(assumption 3). -/
def Obligations.BytesReadInArrivalOrder : Prop :=
  ∀ s t : State, step s = .next t →
    t.rxq = s.rxq ++ s.nextTurn.rx ∨
    (s.seq = .s4 ∧ s.nextTurn.rst = false ∧ ∃ b, s.rxq ++ s.nextTurn.rx = b :: t.rxq)

/-- 20_memory.md R54, 60_exceptions.md R125: a step writes nothing, or appends `ACK_MARKER`, or, right after it, the checksum
byte; what was written stays. That the two writes of S5 are two steps, with `s5Ack` between them, is the model's choice
(assumption 3). -/
def Obligations.WritesAppendAckThenChecksum : Prop :=
  ∀ s t : State, step s = .next t →
    t.txlog = s.txlog ∨
    (s.seq = .s5 ∧ t.seq = .s5Ack ∧ t.txlog = s.txlog ++ [s.params.ackMarker]) ∨
    (s.seq = .s5Ack ∧ t.seq = .s6 ∧ t.txlog = s.txlog ++ [s.bufPeek (s.params.payloadLen + 1)])

/-- The phase view at rest (10_state.md R37): Ready exactly when `VALID`, Empty exactly when no byte is live, Filling in
between. -/
def Obligations.PhaseViewAtRest : Prop :=
  ∀ s : State, s.Inv → s.seq = .idle →
    (s.phase = some .ready ↔ s.valid = true) ∧ (s.phase = some .ready → s.liveCount = s.capacity - 1) ∧
    (s.phase = some .empty ↔ s.liveCount = 0) ∧
    (s.phase = some .filling ↔ 0 < s.liveCount ∧ s.liveCount < s.capacity - 1)

/-! ### Whole PROCESS commands -/

/-- 42_decode.md R92, which the spec marks as derived, and 30_encoding.md R60: a PROCESS command gives no response before its
end and exactly one at its end, `VALID` in bit 0; it writes exactly `ACK_MARKER` and the validated checksum when it answers 1,
and nothing when it answers 0. -/
def Obligations.ProcessAnswersOnceAndWritesTwoOrNone : Prop :=
  ∀ (s t : State) (arrived : List Byte), s.Inv → ProcessRun s arrived t →
    (t.seq ≠ .idle → t.rsplog = s.rsplog) ∧
    (t.seq = .idle → t.valid = true → t.rsplog = s.rsplog ++ [1#32] ∧
      t.txlog = s.txlog ++ [t.params.ackMarker, xorBytes t.payload]) ∧
    (t.seq = .idle → t.valid = false → t.rsplog = s.rsplog ++ [0#32] ∧ t.txlog = s.txlog)

/-- 42_decode.md R94 and, for garbage without a marker, R96, which the spec marks as derived. From an Empty state at rest, a
frame readable as PROCESS starts, after any bytes `g` none of which is `MARKER`, is read whole, answered 1 and acknowledged,
the bytes before it discarded, and then GET_BYTE k reads payload byte k. R94 is the case `g = []`. A finite `DRAIN_LIMIT`
must admit the reads. The number of steps is the model's division of PROCESS into steps (assumption 3). -/
def Obligations.FrameRoundTripPastGarbage : Prop :=
  ∀ (s : State) (g p : List Byte), s.Inv → s.StartsProcess → s.nextTurn.rx = [] → s.liveCount = 0 →
    p.length = s.params.payloadLen → (∀ b ∈ g, b ≠ s.params.marker) → s.rxq = g ++ frameOf s.params.marker p →
    permits s.params.drainLimit (g.length + s.params.payloadLen + 2) = true →
    s.QuietFor 1 (g.length + s.params.payloadLen + 10) →
    ∃ t, runFor (g.length + s.params.payloadLen + 10) s = .next t ∧ t.seq = .idle ∧ t.valid = true ∧ t.rxq = [] ∧
      t.live = frameOf s.params.marker p ∧ t.rsplog = s.rsplog ++ [1#32] ∧
      t.txlog = s.txlog ++ [s.params.ackMarker, xorBytes p] ∧
      ∀ k b : Byte, p[k.toNat]? = some b →
        exec (.getByte k) t = .next { t with rsplog := t.rsplog ++ [b.setWidth 32] }

/-- 42_decode.md R95, which the spec marks as derived, one command at a time: at rest with the first `m` bytes of a frame
live, a PROCESS that sees the next bytes `q` of it and nothing else answers 0, writes nothing and keeps the bytes read so
far, unless these bytes complete the frame, and then answers 1 and acknowledges. Any split of a frame into commands is a
chain of these. The numbers of steps are the model's division of PROCESS into steps (assumption 3). -/
def Obligations.SplitDeliveryOneCommand : Prop :=
  ∀ (s : State) (p q : List Byte) (m : Nat), s.Inv → s.StartsProcess → s.nextTurn.rx = [] → s.valid = false →
    p.length = s.params.payloadLen → m < s.params.payloadLen + 2 → s.live = (frameOf s.params.marker p).take m →
    s.rxq = q → q <+: (frameOf s.params.marker p).drop m → permits s.params.drainLimit q.length = true →
    s.QuietFor 1 (q.length + 8) →
    (m + q.length < s.params.payloadLen + 2 →
      ∃ t, runFor (q.length + 7) s = .next t ∧ t.seq = .idle ∧ t.valid = false ∧ t.rxq = [] ∧
        t.live = (frameOf s.params.marker p).take (m + q.length) ∧ t.rsplog = s.rsplog ++ [0#32] ∧
        t.txlog = s.txlog) ∧
    (m + q.length = s.params.payloadLen + 2 →
      ∃ t, runFor (q.length + 8) s = .next t ∧ t.seq = .idle ∧ t.valid = true ∧ t.rxq = [] ∧
        t.live = frameOf s.params.marker p ∧ t.rsplog = s.rsplog ++ [1#32] ∧
        t.txlog = s.txlog ++ [s.params.ackMarker, xorBytes p])

/-- 42_decode.md R83 and R97: a PROCESS in the Ready phase that sees no byte pops the old marker, drops the old frame up to
the next byte equal to `MARKER`, which becomes the head, and answers 0 without writing; the three accessors then read 0
(70_reset_and_hazards.md R131). Its seven steps count the acceptance as one (assumption 3). -/
def Obligations.ConsumedFrameIsReleased : Prop :=
  ∀ s : State, s.Inv → s.StartsProcess → s.nextTurn.rx = [] → s.valid = true → s.rxq = [] → s.QuietFor 1 7 →
    ∃ t, runFor 7 s = .next t ∧ t.seq = .idle ∧ t.valid = false ∧
      t.live = s.live.tail.dropWhile (fun b => b != s.params.marker) ∧ t.rsplog = s.rsplog ++ [0#32] ∧
      t.txlog = s.txlog ∧
      ∀ i j : Byte,
        exec (.getByte i) t = .next { t with rsplog := t.rsplog ++ [0#32] } ∧
        exec (.getInt i j) t = .next { t with rsplog := t.rsplog ++ [0#32] } ∧
        exec (.getLong i j) t = .next { t with rsplog := t.rsplog ++ [0#32] }

/-- 42_decode.md R91 (a), which the spec marks as derived: with a finite `DRAIN_LIMIT` every PROCESS ends, whatever arrives,
and answers, within a bound that the live count after S1 and the limit give: three steps a pass, at most
`live_count + DRAIN_LIMIT + 1` passes. What one step is, and so the three, is the model's division of PROCESS (assumption
3). -/
def Obligations.ProcessEndsUnderDrainLimit : Prop :=
  ∀ (s : State) (l passes bound : Nat), s.Inv → s.StartsProcess → s.params.drainLimit = .atMost l →
    passes = (if s.valid then s.liveCount - 1 else s.liveCount) + l + 1 → bound = 3 * passes + l + 5 →
    s.HostWaits 1 bound →
    ∃ n t v, n ≤ bound ∧ runFor n s = .next t ∧ t.seq = .idle ∧ t.rsplog = s.rsplog ++ [v]

/-- 42_decode.md R91 (b), which the spec marks as derived, and 93_implementation_defined.md I7: with `DRAIN_LIMIT =
UNBOUNDED`, a transport that keeps making one byte other than `MARKER` readable keeps PROCESS in its fill, however long it
goes on: the model admits the run that does not end. That each of the `n` bytes takes one step is the model's reading, one
pass of the fill being one step (assumption 3). -/
def Obligations.HangIsAdmitted : Prop :=
  ∀ (s : State) (n : Nat), s.Inv → s.params.Legal → s.params.drainLimit = .unbounded → s.seq = .s4 → s.liveCount = 0 →
    s.rxq = [] → (∀ k, k < n → ∃ b, b ≠ s.params.marker ∧ s.turnAt k = Turn.arrive [b]) →
    ∃ t, runFor n s = .next t ∧ t.seq = .s4 ∧ t.liveCount = 0 ∧ t.rxq = [] ∧ t.rsplog = s.rsplog ∧ t.txlog = s.txlog

/-- 42_decode.md R89 and R90, the sentences the spec marks as derived: every end state of a PROCESS under finite limits
(buffer, `VALID`, response, bytes written) is an end state of the unbounded procedure, in the run where the bytes this
command does not read arrive only after it ends. -/
def Obligations.LimitsAddNoEndState : Prop :=
  ∀ (s t : State) (arrived : List Byte), s.Inv → ProcessRun s arrived t → t.seq = .idle →
    ∃ (q : List Byte) (turns : List Turn) (v : State),
      q ++ t.rxq = s.rxq ++ arrived ∧
      ProcessRun { s with params := unlimited s.params, rxq := q, script := turns } [] v ∧
      v.seq = .idle ∧ v.rxq = [] ∧ v.store = t.store ∧ v.head = t.head ∧ v.tail = t.tail ∧ v.valid = t.valid ∧
      v.rsplog = t.rsplog ∧ v.txlog = t.txlog

/-! ### What cannot be observed -/

/-- 10_state.md R23 and R26: "no rule reads a byte outside the live region", so two states that differ only there take steps
to states that differ only there; the model's choice of an unwritten byte (assumption 2) is not observable. -/
def Obligations.DeadStorageIsUnobservable : Prop :=
  ∀ s t : State, Memory.wf s.store = true → Memory.wf t.store = true → s.SameButDeadStorage t →
    outcomesRelated State.SameButDeadStorage (step s) (step t)

/-- 00_scope.md R16: no rule reads `XPORT_CFG`; a step with another value of it is the same step. -/
def Obligations.TransportConfigurationIsUnread : Prop :=
  ∀ (s : State) (x : Nat),
    outcomesRelated (fun a b => b = { a with params := withXport a.params x }) (step s)
      (step { s with params := withXport s.params x })
end

