-- ==== Sys2Proof/Laws/Memory.lean ====
section
/-! SUPPORT. The storage: reading after writing, and that a write keeps the canonical form. -/

namespace Sys2Proof.Machine

theorem wfFrom_mono {lo lo' : Nat} (h : lo' ≤ lo) {m : List Host.Cell} (hm : Memory.wfFrom lo m = true) :
    Memory.wfFrom lo' m = true := by
  cases m with
  | nil => rfl
  | cons c rest =>
    obtain ⟨a, b⟩ := c
    simp only [Memory.wfFrom, Bool.and_eq_true, decide_eq_true_eq] at hm ⊢
    exact ⟨⟨by omega, hm.1.2⟩, hm.2⟩

/-- An index below every listed one reads as unwritten. -/
theorem read_of_lt {lo a : Nat} (h : a < lo) {m : List Host.Cell} (hm : Memory.wfFrom lo m = true) :
    Memory.read m a = Config.unwrittenByte := by
  induction m generalizing lo with
  | nil => rfl
  | cons c rest ih =>
    obtain ⟨x, v⟩ := c
    simp only [Memory.wfFrom, Bool.and_eq_true, decide_eq_true_eq] at hm
    simp only [Memory.read]
    rw [if_neg (by omega)]
    exact ih (lo := x + 1) (by omega) hm.2

theorem read_consCell (a : Nat) (b : Byte) {m : List Host.Cell} (hm : Memory.wfFrom (a + 1) m = true) (k : Nat) :
    Memory.read (Memory.consCell a b m) k = if k = a then b else Memory.read m k := by
  unfold Memory.consCell
  by_cases hb : b = Config.unwrittenByte
  · rw [if_pos hb]
    by_cases hk : k = a
    · rw [if_pos hk, hk, hb]
      exact read_of_lt (Nat.lt_succ_self a) hm
    · rw [if_neg hk]
  · rw [if_neg hb]
    simp only [Memory.read, eq_comm]

/-- What a byte reads as after a write. -/
theorem read_write {lo : Nat} {m : List Host.Cell} (hm : Memory.wfFrom lo m = true) (a : Nat) (b : Byte) (k : Nat) :
    Memory.read (Memory.write m a b) k = if k = a then b else Memory.read m k := by
  induction m generalizing lo with
  | nil => exact read_consCell a b rfl k
  | cons c rest ih =>
    obtain ⟨x, v⟩ := c
    simp only [Memory.wfFrom, Bool.and_eq_true, decide_eq_true_eq] at hm
    simp only [Memory.write]
    split
    · refine read_consCell a b ?_ k
      simp only [Memory.wfFrom, Bool.and_eq_true, decide_eq_true_eq]
      exact ⟨⟨by omega, hm.1.2⟩, hm.2⟩
    · split
      · rename_i h
        subst h
        rw [read_consCell a b hm.2 k]
        by_cases hk : k = a
        · simp [hk]
        · simp [hk, Memory.read, Ne.symm hk]
      · simp only [Memory.read]
        by_cases hk : x = k
        · subst hk
          rename_i h
          simp [Ne.symm h]
        · simp only [hk, if_false]
          exact ih hm.2

theorem consCell_wfFrom {lo a : Nat} (h : lo ≤ a) (b : Byte) {m : List Host.Cell} (hm : Memory.wfFrom (a + 1) m = true) :
    Memory.wfFrom lo (Memory.consCell a b m) = true := by
  unfold Memory.consCell
  split
  · exact wfFrom_mono (by omega) hm
  · rename_i hb
    simp [Memory.wfFrom, h, hm, hb]

theorem write_wfFrom {lo a : Nat} (h : lo ≤ a) (b : Byte) {m : List Host.Cell} (hm : Memory.wfFrom lo m = true) :
    Memory.wfFrom lo (Memory.write m a b) = true := by
  induction m generalizing lo with
  | nil => exact consCell_wfFrom h b rfl
  | cons c rest ih =>
    obtain ⟨x, v⟩ := c
    simp only [Memory.wfFrom, Bool.and_eq_true, decide_eq_true_eq] at hm
    simp only [Memory.write]
    split
    · refine consCell_wfFrom h b ?_
      simp only [Memory.wfFrom, Bool.and_eq_true, decide_eq_true_eq]
      exact ⟨⟨by omega, hm.1.2⟩, hm.2⟩
    · split
      · rename_i hx
        subst hx
        exact consCell_wfFrom h b hm.2
      · simp only [Memory.wfFrom, Bool.and_eq_true, decide_eq_true_eq]
        exact ⟨hm.1, ih (by omega) hm.2⟩

/-- A write keeps the canonical form. -/
theorem write_wf {m : List Host.Cell} (hm : Memory.wf m = true) (a : Nat) (b : Byte) :
    Memory.wf (Memory.write m a b) = true :=
  write_wfFrom (Nat.zero_le a) b hm

/-- A write lists no index but the one written. -/
theorem mem_write {m : List Host.Cell} {a : Nat} {b : Byte} {c : Host.Cell} (h : c ∈ Memory.write m a b) :
    c.1 = a ∨ c ∈ m := by
  induction m with
  | nil =>
    simp only [Memory.write, Memory.consCell] at h
    split at h
    · exact .inr h
    · simp only [List.mem_singleton] at h
      exact .inl (by rw [h])
  | cons d rest ih =>
    obtain ⟨x, v⟩ := d
    simp only [Memory.write, Memory.consCell] at h
    split at h
    · split at h
      · exact .inr h
      · rcases List.mem_cons.1 h with h | h
        · exact .inl (by rw [h])
        · exact .inr h
    · split at h
      · split at h
        · exact .inr (List.mem_cons_of_mem _ h)
        · rcases List.mem_cons.1 h with h | h
          · exact .inl (by rw [h])
          · exact .inr (List.mem_cons_of_mem _ h)
      · rcases List.mem_cons.1 h with h | h
        · exact .inr (by rw [h]; exact List.mem_cons_self ..)
        · rcases ih h with h | h
          · exact .inl h
          · exact .inr (List.mem_cons_of_mem _ h)

/-- The storage at reset is in canonical form. -/
theorem reset_store_wf : Memory.wf State.reset.store = true := rfl

end Sys2Proof.Machine
end

