-- ==== Sys2Proof/Laws/State.lean ====
section
/-! SUPPORT. What each update of the state leaves in each field, so that no later proof unfolds a record update. -/

namespace Sys2Proof.Machine

variable (s : State)

/-! ### goto -/

@[simp] theorem goto_params (q : Seq) : (s.goto q).params = s.params := rfl
@[simp] theorem goto_store (q : Seq) : (s.goto q).store = s.store := rfl
@[simp] theorem goto_head (q : Seq) : (s.goto q).head = s.head := rfl
@[simp] theorem goto_tail (q : Seq) : (s.goto q).tail = s.tail := rfl
@[simp] theorem goto_valid (q : Seq) : (s.goto q).valid = s.valid := rfl
@[simp] theorem goto_seq (q : Seq) : (s.goto q).seq = q := rfl
@[simp] theorem goto_retries (q : Seq) : (s.goto q).retries = s.retries := rfl
@[simp] theorem goto_reads (q : Seq) : (s.goto q).reads = s.reads := rfl
@[simp] theorem goto_rxq (q : Seq) : (s.goto q).rxq = s.rxq := rfl
@[simp] theorem goto_txlog (q : Seq) : (s.goto q).txlog = s.txlog := rfl
@[simp] theorem goto_rsplog (q : Seq) : (s.goto q).rsplog = s.rsplog := rfl
@[simp] theorem goto_script (q : Seq) : (s.goto q).script = s.script := rfl
@[simp] theorem goto_clock (q : Seq) : (s.goto q).clock = s.clock := rfl

/-! ### storeWrite -/

@[simp] theorem storeWrite_params (k : Nat) (b : Byte) : (s.storeWrite k b).params = s.params := rfl
@[simp] theorem storeWrite_store (k : Nat) (b : Byte) : (s.storeWrite k b).store = Memory.write s.store k b := rfl
@[simp] theorem storeWrite_head (k : Nat) (b : Byte) : (s.storeWrite k b).head = s.head := rfl
@[simp] theorem storeWrite_tail (k : Nat) (b : Byte) : (s.storeWrite k b).tail = s.tail := rfl
@[simp] theorem storeWrite_valid (k : Nat) (b : Byte) : (s.storeWrite k b).valid = s.valid := rfl
@[simp] theorem storeWrite_seq (k : Nat) (b : Byte) : (s.storeWrite k b).seq = s.seq := rfl
@[simp] theorem storeWrite_retries (k : Nat) (b : Byte) : (s.storeWrite k b).retries = s.retries := rfl
@[simp] theorem storeWrite_reads (k : Nat) (b : Byte) : (s.storeWrite k b).reads = s.reads := rfl
@[simp] theorem storeWrite_rxq (k : Nat) (b : Byte) : (s.storeWrite k b).rxq = s.rxq := rfl
@[simp] theorem storeWrite_txlog (k : Nat) (b : Byte) : (s.storeWrite k b).txlog = s.txlog := rfl
@[simp] theorem storeWrite_rsplog (k : Nat) (b : Byte) : (s.storeWrite k b).rsplog = s.rsplog := rfl
@[simp] theorem storeWrite_script (k : Nat) (b : Byte) : (s.storeWrite k b).script = s.script := rfl
@[simp] theorem storeWrite_clock (k : Nat) (b : Byte) : (s.storeWrite k b).clock = s.clock := rfl

/-! ### txWrite -/

@[simp] theorem txWrite_params (b : Byte) : (s.txWrite b).params = s.params := rfl
@[simp] theorem txWrite_store (b : Byte) : (s.txWrite b).store = s.store := rfl
@[simp] theorem txWrite_head (b : Byte) : (s.txWrite b).head = s.head := rfl
@[simp] theorem txWrite_tail (b : Byte) : (s.txWrite b).tail = s.tail := rfl
@[simp] theorem txWrite_valid (b : Byte) : (s.txWrite b).valid = s.valid := rfl
@[simp] theorem txWrite_seq (b : Byte) : (s.txWrite b).seq = s.seq := rfl
@[simp] theorem txWrite_retries (b : Byte) : (s.txWrite b).retries = s.retries := rfl
@[simp] theorem txWrite_reads (b : Byte) : (s.txWrite b).reads = s.reads := rfl
@[simp] theorem txWrite_rxq (b : Byte) : (s.txWrite b).rxq = s.rxq := rfl
@[simp] theorem txWrite_txlog (b : Byte) : (s.txWrite b).txlog = s.txlog ++ [b] := rfl
@[simp] theorem txWrite_rsplog (b : Byte) : (s.txWrite b).rsplog = s.rsplog := rfl
@[simp] theorem txWrite_script (b : Byte) : (s.txWrite b).script = s.script := rfl
@[simp] theorem txWrite_clock (b : Byte) : (s.txWrite b).clock = s.clock := rfl

/-! ### respond -/

@[simp] theorem respond_params (v : Word) : (s.respond v).params = s.params := rfl
@[simp] theorem respond_store (v : Word) : (s.respond v).store = s.store := rfl
@[simp] theorem respond_head (v : Word) : (s.respond v).head = s.head := rfl
@[simp] theorem respond_tail (v : Word) : (s.respond v).tail = s.tail := rfl
@[simp] theorem respond_valid (v : Word) : (s.respond v).valid = s.valid := rfl
@[simp] theorem respond_seq (v : Word) : (s.respond v).seq = s.seq := rfl
@[simp] theorem respond_retries (v : Word) : (s.respond v).retries = s.retries := rfl
@[simp] theorem respond_reads (v : Word) : (s.respond v).reads = s.reads := rfl
@[simp] theorem respond_rxq (v : Word) : (s.respond v).rxq = s.rxq := rfl
@[simp] theorem respond_txlog (v : Word) : (s.respond v).txlog = s.txlog := rfl
@[simp] theorem respond_rsplog (v : Word) : (s.respond v).rsplog = s.rsplog ++ [v] := rfl
@[simp] theorem respond_script (v : Word) : (s.respond v).script = s.script := rfl
@[simp] theorem respond_clock (v : Word) : (s.respond v).clock = s.clock := rfl

/-! ### assertReset -/

@[simp] theorem assertReset_params : s.assertReset.params = s.params := rfl
@[simp] theorem assertReset_store : s.assertReset.store = [] := rfl
@[simp] theorem assertReset_head : s.assertReset.head = 0 := rfl
@[simp] theorem assertReset_tail : s.assertReset.tail = 0 := rfl
@[simp] theorem assertReset_valid : s.assertReset.valid = false := rfl
@[simp] theorem assertReset_seq : s.assertReset.seq = .idle := rfl
@[simp] theorem assertReset_retries : s.assertReset.retries = 0 := rfl
@[simp] theorem assertReset_reads : s.assertReset.reads = 0 := rfl
@[simp] theorem assertReset_rxq : s.assertReset.rxq = s.rxq := rfl
@[simp] theorem assertReset_txlog : s.assertReset.txlog = s.txlog := rfl
@[simp] theorem assertReset_rsplog : s.assertReset.rsplog = s.rsplog := rfl
@[simp] theorem assertReset_script : s.assertReset.script = s.script := rfl
@[simp] theorem assertReset_clock : s.assertReset.clock = s.clock := rfl

/-! ### takeTurn -/

@[simp] theorem takeTurn_params : s.takeTurn.params = s.params := rfl
@[simp] theorem takeTurn_store : s.takeTurn.store = s.store := rfl
@[simp] theorem takeTurn_head : s.takeTurn.head = s.head := rfl
@[simp] theorem takeTurn_tail : s.takeTurn.tail = s.tail := rfl
@[simp] theorem takeTurn_valid : s.takeTurn.valid = s.valid := rfl
@[simp] theorem takeTurn_seq : s.takeTurn.seq = s.seq := rfl
@[simp] theorem takeTurn_retries : s.takeTurn.retries = s.retries := rfl
@[simp] theorem takeTurn_reads : s.takeTurn.reads = s.reads := rfl
@[simp] theorem takeTurn_rxq : s.takeTurn.rxq = s.rxq ++ s.nextTurn.rx := rfl
@[simp] theorem takeTurn_txlog : s.takeTurn.txlog = s.txlog := rfl
@[simp] theorem takeTurn_rsplog : s.takeTurn.rsplog = s.rsplog := rfl
@[simp] theorem takeTurn_script : s.takeTurn.script = s.script.tail := rfl
@[simp] theorem takeTurn_clock : s.takeTurn.clock = s.clock + 1 := rfl

/-! ### withCommand -/

@[simp] theorem withCommand_params (w : Word) : (s.withCommand w).params = s.params := rfl
@[simp] theorem withCommand_store (w : Word) : (s.withCommand w).store = s.store := rfl
@[simp] theorem withCommand_head (w : Word) : (s.withCommand w).head = s.head := rfl
@[simp] theorem withCommand_tail (w : Word) : (s.withCommand w).tail = s.tail := rfl
@[simp] theorem withCommand_valid (w : Word) : (s.withCommand w).valid = s.valid := rfl
@[simp] theorem withCommand_seq (w : Word) : (s.withCommand w).seq = .idle := rfl
@[simp] theorem withCommand_retries (w : Word) : (s.withCommand w).retries = s.retries := rfl
@[simp] theorem withCommand_reads (w : Word) : (s.withCommand w).reads = s.reads := rfl
@[simp] theorem withCommand_rxq (w : Word) : (s.withCommand w).rxq = s.rxq := rfl
@[simp] theorem withCommand_txlog (w : Word) : (s.withCommand w).txlog = s.txlog := rfl
@[simp] theorem withCommand_rsplog (w : Word) : (s.withCommand w).rsplog = s.rsplog := rfl
@[simp] theorem withCommand_script (w : Word) : (s.withCommand w).script = Turn.issue w :: s.script := rfl
@[simp] theorem withCommand_clock (w : Word) : (s.withCommand w).clock = s.clock := rfl

/-! ### stepS2 -/

@[simp] theorem stepS2_params : s.stepS2.params = s.params := rfl
@[simp] theorem stepS2_store : s.stepS2.store = s.store := rfl
@[simp] theorem stepS2_head : s.stepS2.head = s.head := rfl
@[simp] theorem stepS2_tail : s.stepS2.tail = s.tail := rfl
@[simp] theorem stepS2_valid : s.stepS2.valid = false := rfl
@[simp] theorem stepS2_seq : s.stepS2.seq = .s3 := rfl
@[simp] theorem stepS2_retries : s.stepS2.retries = 0 := rfl
@[simp] theorem stepS2_reads : s.stepS2.reads = 0 := rfl
@[simp] theorem stepS2_rxq : s.stepS2.rxq = s.rxq := rfl
@[simp] theorem stepS2_txlog : s.stepS2.txlog = s.txlog := rfl
@[simp] theorem stepS2_rsplog : s.stepS2.rsplog = s.rsplog := rfl
@[simp] theorem stepS2_script : s.stepS2.script = s.script := rfl
@[simp] theorem stepS2_clock : s.stepS2.clock = s.clock := rfl

/-! ### What depends on the unchanged fields only -/

@[simp] theorem goto_liveCount (q : Seq) : (s.goto q).liveCount = s.liveCount := rfl
@[simp] theorem goto_capacity (q : Seq) : (s.goto q).capacity = s.capacity := rfl
@[simp] theorem goto_bufPeek (q : Seq) (k : Nat) : (s.goto q).bufPeek k = s.bufPeek k := rfl
@[simp] theorem goto_bufFull (q : Seq) : (s.goto q).bufFull = s.bufFull := rfl
@[simp] theorem goto_bufEmpty (q : Seq) : (s.goto q).bufEmpty = s.bufEmpty := rfl
@[simp] theorem txWrite_bufPeek (b : Byte) (k : Nat) : (s.txWrite b).bufPeek k = s.bufPeek k := rfl
@[simp] theorem respond_bufPeek (v : Word) (k : Nat) : (s.respond v).bufPeek k = s.bufPeek k := rfl
@[simp] theorem takeTurn_bufPeek (k : Nat) : s.takeTurn.bufPeek k = s.bufPeek k := rfl
@[simp] theorem takeTurn_liveCount : s.takeTurn.liveCount = s.liveCount := rfl
@[simp] theorem takeTurn_capacity : s.takeTurn.capacity = s.capacity := rfl
@[simp] theorem takeTurn_bufFull : s.takeTurn.bufFull = s.bufFull := rfl
@[simp] theorem takeTurn_bufEmpty : s.takeTurn.bufEmpty = s.bufEmpty := rfl
@[simp] theorem takeTurn_chkOk : s.takeTurn.chkOk = s.chkOk := rfl

end Sys2Proof.Machine
end

