-- ==== Sys2Proof/Laws/Buffer.lean ====
section
/-! SUPPORT. The circular buffer controller: the live count, and what a push and a pop do to the live bytes. None of these
needs the cursors in range, since every index is taken modulo `C`. -/

namespace Sys2Proof.Machine

variable {s : State}

theorem capacity_pos (s : State) : 0 < s.capacity := Nat.succ_pos _

/-! ### The live count -/

theorem liveCount_int (s : State) : (s.liveCount : Int) = ((s.tail : Int) - s.head) % s.capacity :=
  Int.toNat_of_nonneg (Int.emod_nonneg _ (by have := capacity_pos s; omega))

theorem liveCount_lt (s : State) : s.liveCount < s.capacity := by
  have h := Int.emod_lt_of_pos ((s.tail : Int) - s.head) (b := s.capacity) (by have := capacity_pos s; omega)
  rw [← liveCount_int] at h
  omega

/-- The live count leads from the head to the tail. -/
theorem head_add_liveCount (s : State) : (s.head + s.liveCount) % s.capacity = s.tail % s.capacity := by
  zify
  rw [liveCount_int, Int.add_emod, Int.emod_emod_of_dvd _ (dvd_refl _), ← Int.add_emod]
  congr 1
  omega

theorem add_mod_left_cancel {c h a b : Nat} (ha : a < c) (hb : b < c) (e : (h + a) % c = (h + b) % c) : a = b := by
  have : a ≡ b [MOD c] := Nat.ModEq.add_left_cancel' h e
  exact Nat.ModEq.eq_of_lt_of_lt this ha hb

/-- The only number below `C` that leads from the head to the tail is the live count. -/
theorem liveCount_unique {n : Nat} (hn : n < s.capacity) (h : (s.head + n) % s.capacity = s.tail % s.capacity) :
    s.liveCount = n :=
  add_mod_left_cancel (liveCount_lt s) hn ((head_add_liveCount s).trans h.symm)

/-- With the cursors in range, equal cursors and a live count of 0 are one thing (10_state.md R25, 40_buffer.md R74). -/
theorem bufEmpty_iff (hh : s.head < s.capacity) (ht : s.tail < s.capacity) : s.bufEmpty = true ↔ s.liveCount = 0 := by
  simp only [State.bufEmpty, beq_iff_eq]
  constructor
  · intro h
    exact liveCount_unique (capacity_pos s) (by rw [h, Nat.add_zero])
  · intro h
    have e := head_add_liveCount s
    rwa [h, Nat.add_zero, Nat.mod_eq_of_lt hh, Nat.mod_eq_of_lt ht] at e

theorem bufFull_iff (s : State) : s.bufFull = true ↔ s.liveCount = s.params.payloadLen + 2 := by
  simp [State.bufFull, State.capacity, Params.capacity]

theorem bufFull_false_iff (s : State) : s.bufFull = false ↔ s.liveCount < s.params.payloadLen + 2 := by
  have h := liveCount_lt s
  have e := bufFull_iff s
  simp only [State.capacity, Params.capacity] at h
  rw [← Bool.not_eq_true, e]
  omega

/-! ### The live bytes as a list -/

@[simp] theorem live_length (s : State) : s.live.length = s.liveCount := by simp [State.live]

theorem live_getElem {k : Nat} (h : k < s.live.length) : s.live[k] = s.bufPeek k := by simp [State.live]

/-- A peek reads the list of live bytes, and 0 past its end (40_buffer.md R71). -/
theorem bufPeek_eq_live (s : State) (k : Nat) : s.bufPeek k = (s.live[k]?).getD 0x00#8 := by
  by_cases h : k < s.live.length
  · rw [List.getElem?_eq_getElem h, live_getElem, Option.getD_some]
  · rw [List.getElem?_eq_none (by omega), Option.getD_none]
    rw [live_length] at h
    simp only [State.bufPeek]
    rw [if_pos (by omega)]

theorem live_eq_nil_iff : s.live = [] ↔ s.liveCount = 0 := by
  rw [← List.length_eq_zero_iff, live_length]

/-! ### BUF_POP -/

theorem bufPop_empty (h : s.liveCount = 0) : s.bufPop = (0x00#8, s) := by simp [State.bufPop, h]

theorem bufPop_nonempty (h : s.liveCount ≠ 0) :
    s.bufPop = (s.bufPeek 0, { s with head := (s.head + 1) % s.capacity }) := by
  simp only [State.bufPop, h, if_false, State.bufPeek]
  rw [if_neg (by omega)]
  rfl

/-- A pop changes the head cursor only. -/
theorem bufPop_frame (s : State) : s.bufPop.2 = { s with head := s.bufPop.2.head } := by
  by_cases h : s.liveCount = 0
  · rw [bufPop_empty h]
  · rw [bufPop_nonempty h]

theorem bufPop_liveCount (s : State) : s.bufPop.2.liveCount = s.liveCount - 1 := by
  by_cases h : s.liveCount = 0
  · simp [bufPop_empty h, h]
  · rw [bufPop_nonempty h]
    have hlt := liveCount_lt s
    refine liveCount_unique (show s.liveCount - 1 < s.capacity by omega) ?_
    show ((s.head + 1) % s.capacity + (s.liveCount - 1)) % s.capacity = s.tail % s.capacity
    rw [Nat.mod_add_mod, ← head_add_liveCount s]
    congr 1
    omega

theorem bufPop_bufPeek (h : s.liveCount ≠ 0) (k : Nat) : s.bufPop.2.bufPeek k = s.bufPeek (k + 1) := by
  simp only [State.bufPeek, bufPop_liveCount]
  by_cases hk : k + 1 < s.liveCount
  · rw [if_neg (by omega), if_neg (by omega), bufPop_nonempty h]
    show s.storeRead (((s.head + 1) % s.capacity + k) % s.capacity) = s.storeRead ((s.head + (k + 1)) % s.capacity)
    rw [Nat.mod_add_mod]
    congr 2
    omega
  · rw [if_pos (by omega), if_pos (by omega)]

/-- A pop removes the first live byte (40_buffer.md R70). -/
theorem bufPop_live (s : State) : s.bufPop.2.live = s.live.tail := by
  by_cases h : s.liveCount = 0
  · rw [bufPop_empty h, live_eq_nil_iff.2 h, List.tail_nil]
  · apply List.ext_getElem
    · simp [bufPop_liveCount]
    · intro k h1 h2
      rw [live_getElem, List.getElem_tail, live_getElem, bufPop_bufPeek h]

/-! ### BUF_PUSH -/

theorem bufPush_full (h : s.bufFull = true) (b : Byte) : s.bufPush b = s := by simp [State.bufPush, h]

theorem bufPush_room (h : s.bufFull = false) (b : Byte) :
    s.bufPush b = { s.storeWrite (s.slot s.tail) b with tail := (s.tail + 1) % s.capacity } := by
  simp [State.bufPush, h]

/-- A push changes the storage and the tail cursor only. -/
theorem bufPush_frame (s : State) (b : Byte) :
    s.bufPush b = { s with store := (s.bufPush b).store, tail := (s.bufPush b).tail } := by
  cases h : s.bufFull
  · rw [bufPush_room h]; rfl
  · rw [bufPush_full h]

theorem bufPush_liveCount (h : s.bufFull = false) (b : Byte) : (s.bufPush b).liveCount = s.liveCount + 1 := by
  rw [bufPush_room h]
  have hr := (bufFull_false_iff s).1 h
  refine liveCount_unique (show s.liveCount + 1 < s.params.payloadLen + 3 by omega) ?_
  show (s.head + (s.liveCount + 1)) % s.capacity = (s.tail + 1) % s.capacity % s.capacity
  rw [Nat.mod_mod, ← Nat.add_assoc, Nat.add_mod, head_add_liveCount, ← Nat.add_mod]

theorem bufPush_bufPeek (hw : Memory.wf s.store = true) (h : s.bufFull = false) (b : Byte) (k : Nat) :
    (s.bufPush b).bufPeek k = if k = s.liveCount then b else s.bufPeek k := by
  have hr := (bufFull_false_iff s).1 h
  have hlt := liveCount_lt s
  simp only [State.bufPeek, bufPush_liveCount h]
  by_cases hk : k < s.liveCount + 1
  · rw [if_neg (by omega), bufPush_room h]
    show Memory.read (Memory.write s.store (s.tail % s.capacity) b) ((s.head + k) % s.capacity) = _
    rw [read_write (lo := 0) hw, ← head_add_liveCount s]
    by_cases hkl : k = s.liveCount
    · rw [if_pos (by rw [hkl]), if_pos hkl]
    · rw [if_neg hkl, if_neg (fun e => hkl (add_mod_left_cancel (by omega) hlt e)), if_neg (by omega)]
      rfl
  · rw [if_pos (by omega), if_neg (by omega), if_pos (by omega)]

/-- A push into a buffer with room appends a live byte (40_buffer.md R69). -/
theorem bufPush_live (hw : Memory.wf s.store = true) (h : s.bufFull = false) (b : Byte) :
    (s.bufPush b).live = s.live ++ [b] := by
  apply List.ext_getElem
  · simp [bufPush_liveCount h]
  · intro k h1 h2
    rw [live_getElem, bufPush_bufPeek hw h]
    by_cases hk : k = s.liveCount
    · subst hk
      simp
    · have : k < s.live.length := by
        rw [live_length] at h1 ⊢
        rw [bufPush_liveCount h] at h1
        omega
      rw [if_neg hk, List.getElem_append_left this, live_getElem]

theorem bufPush_store_wf (hw : Memory.wf s.store = true) (b : Byte) : Memory.wf (s.bufPush b).store = true := by
  cases h : s.bufFull
  · rw [bufPush_room h]
    exact write_wf hw _ _
  · rw [bufPush_full h]
    exact hw

end Sys2Proof.Machine
end

