-- ==== Sys2Proof/Laws/Decode.lean ====
section
/-! SUPPORT. The fields of an assembled command word. -/

namespace Sys2Proof

/-- The fields of a command word written as one number. -/
theorem commandWord_toNat (op : BitVec 4) (i j : Byte) :
    (commandWord op i j).toNat = op.toNat * 2 ^ 28 + i.toNat * 2 ^ 8 + j.toNat := by
  have h1 : i.toNat < 2 ^ 8 := i.isLt
  have h2 : j.toNat < 2 ^ 8 := j.isLt
  simp only [commandWord, BitVec.toNat_append, BitVec.toNat_ofNat]
  rw [← Nat.shiftLeft_add_eq_or_of_lt h2, ← Nat.shiftLeft_add_eq_or_of_lt h1]
  simp only [Nat.shiftLeft_eq]
  simp
  omega

theorem opField_toNat (w : Word) : (opField w).toNat = w.toNat / 2 ^ 28 := by
  have : w.toNat < 2 ^ 32 := w.isLt
  simp only [opField, BitVec.extractLsb'_toNat, Nat.shiftRight_eq_div_pow]
  omega

theorem rsvField_toNat (w : Word) : (rsvField w).toNat = w.toNat / 2 ^ 16 % 2 ^ 12 := by
  simp [rsvField, BitVec.extractLsb'_toNat, Nat.shiftRight_eq_div_pow]

theorem iField_toNat (w : Word) : (iField w).toNat = w.toNat / 2 ^ 8 % 2 ^ 8 := by
  simp [iField, BitVec.extractLsb'_toNat, Nat.shiftRight_eq_div_pow]

theorem jField_toNat (w : Word) : (jField w).toNat = w.toNat % 2 ^ 8 := by
  simp [jField, BitVec.extractLsb'_toNat]

@[simp] theorem opField_commandWord (op : BitVec 4) (i j : Byte) : opField (commandWord op i j) = op := by
  have h1 : i.toNat < 2 ^ 8 := i.isLt
  have h2 : j.toNat < 2 ^ 8 := j.isLt
  apply BitVec.eq_of_toNat_eq
  rw [opField_toNat, commandWord_toNat]
  omega

@[simp] theorem rsvField_commandWord (op : BitVec 4) (i j : Byte) : rsvField (commandWord op i j) = 0#12 := by
  have h1 : i.toNat < 2 ^ 8 := i.isLt
  have h2 : j.toNat < 2 ^ 8 := j.isLt
  apply BitVec.eq_of_toNat_eq
  rw [rsvField_toNat, commandWord_toNat, BitVec.toNat_ofNat]
  omega

@[simp] theorem iField_commandWord (op : BitVec 4) (i j : Byte) : iField (commandWord op i j) = i := by
  have h1 : i.toNat < 2 ^ 8 := i.isLt
  have h2 : j.toNat < 2 ^ 8 := j.isLt
  apply BitVec.eq_of_toNat_eq
  rw [iField_toNat, commandWord_toNat]
  omega

@[simp] theorem jField_commandWord (op : BitVec 4) (i j : Byte) : jField (commandWord op i j) = j := by
  have h1 : i.toNat < 2 ^ 8 := i.isLt
  have h2 : j.toNat < 2 ^ 8 := j.isLt
  apply BitVec.eq_of_toNat_eq
  rw [jField_toNat, commandWord_toNat]
  omega

/-- All the decoder can answer, by `OP` and `RSV` as numbers: what every proof about `decode` starts from. -/
theorem decode_cases (w : Word) :
    (Word.rsv w = 0 ∧ Word.op w = 1 ∧ decode w = .process) ∨
    (Word.rsv w = 0 ∧ Word.op w = 2 ∧ decode w = .getByte (iField w)) ∨
    (Word.rsv w = 0 ∧ Word.op w = 3 ∧ decode w = .getInt (iField w) (jField w)) ∨
    (Word.rsv w = 0 ∧ Word.op w = 4 ∧ decode w = .getLong (iField w) (jField w)) ∨
    (Word.rsv w = 0 ∧ Word.op w = 5 ∧ decode w = .count) ∨
    (Word.rsv w = 0 ∧ Word.op w = 6 ∧ decode w = .isFull) ∨
    (Word.rsv w = 0 ∧ Word.op w = 7 ∧ decode w = .isEmpty) ∨
    ((Word.rsv w ≠ 0 ∨ Word.op w = 0 ∨ 8 ≤ Word.op w) ∧ decode w = .reserved w) := by
  have ho := opField_toNat w
  have hr := rsvField_toNat w
  simp only [Word.op, Word.rsv, ← ho, ← hr]
  unfold decode
  have hlt : (opField w).toNat < 16 := (opField w).isLt
  by_cases h : rsvField w = 0#12
  · rw [if_pos h, h]
    generalize (opField w).toNat = q at hlt
    interval_cases q <;> simp
  · have : (rsvField w).toNat ≠ 0 := fun e => h (BitVec.eq_of_toNat_eq e)
    simp [h, this]

/-- A word under the mask `0xFFFF0000` is its upper half. -/
theorem and_upper_toNat (w : Word) : (w &&& 0xFFFF0000#32).toNat = w.toNat / 2 ^ 16 * 2 ^ 16 := by
  have h : w &&& 0xFFFF0000#32 = (w >>> 16) <<< 16 := by
    ext k hk
    have hm : (0xFFFF0000#32)[k] = decide (16 ≤ k) := by
      revert k
      decide
    simp only [BitVec.getElem_and, hm, BitVec.getElem_shiftLeft]
    by_cases h16 : 16 ≤ k
    · have h17 : ¬ k < 16 := by omega
      simp [h16, h17, BitVec.getElem_eq_testBit_toNat]
    · have h17 : k < 16 := by omega
      simp [h16, h17]
  have hb : w.toNat < 2 ^ 32 := w.isLt
  rw [h]
  simp only [BitVec.toNat_shiftLeft, BitVec.toNat_ushiftRight, Nat.shiftRight_eq_div_pow, Nat.shiftLeft_eq]
  omega

end Sys2Proof
end

