-- ==== Sys2Proof/Laws/PerInstr.lean ====
section
/-! SUPPORT. Statements for every command, one lemma per constructor: the word a command is encoded as matches its row of
spec/opcode_table.json; a reserved word matches one of the RESERVED rows (30_encoding.md section 4). -/

namespace Sys2Proof

theorem upper_half_matches {op : BitVec 4} {i j : Byte} {m : Word} (h : m.toNat = op.toNat * 2 ^ 28) :
    matchesRow (commandWord op i j) (m, 0xFFFF0000#32) = true := by
  have h1 : i.toNat < 2 ^ 8 := i.isLt
  have h2 : j.toNat < 2 ^ 8 := j.isLt
  simp only [matchesRow, beq_iff_eq]
  apply BitVec.eq_of_toNat_eq
  rw [and_upper_toNat, commandWord_toNat, h]
  omega

/-- A word with a bit set matches the row of that bit alone. -/
theorem single_bit_matches {w : Word} {b : Nat} (h : w.getLsbD b = true) :
    matchesRow w (1#32 <<< b, 1#32 <<< b) = true := by
  simp only [matchesRow, beq_iff_eq]
  apply BitVec.eq_of_getLsbD_eq
  intro k hk
  rw [BitVec.getLsbD_and]
  by_cases hkb : k = b
  · rw [hkb, h, Bool.true_and]
  · have : (1#32 <<< b).getLsbD k = false := by
      simp only [BitVec.getLsbD_shiftLeft, BitVec.getLsbD_one]
      by_cases h1 : k < b
      · simp [h1]
      · have : k - b ≠ 0 := by omega
        simp [this]
    rw [this, Bool.and_false]

theorem rsv_bit_set {w : Word} (h : rsvField w ≠ 0#12) : ∃ b, b < 12 ∧ w.getLsbD (16 + b) = true := by
  by_contra hn
  refine h (BitVec.eq_of_getLsbD_eq ?_)
  intro k hk
  have hf : w.getLsbD (16 + k) = false := by
    by_contra ht
    exact hn ⟨k, hk, by simpa using ht⟩
  simp [rsvField, BitVec.getLsbD_extractLsb', hf]

/-- A reserved word matches a RESERVED row (30_encoding.md R62). -/
theorem reserved_matches {w : Word} (h : Word.isReserved w = true) : reservedRows.any (matchesRow w) = true := by
  simp only [Word.isReserved, Word.op, Word.rsv, Bool.or_eq_true, beq_iff_eq, bne_iff_ne] at h
  have hw : w.toNat < 2 ^ 32 := w.isLt
  rw [List.any_eq_true]
  rcases h with (h | h) | h
  · refine ⟨(0x00000000#32, 0xF0000000#32), by simp [reservedRows], ?_⟩
    simp only [matchesRow, beq_iff_eq]
    apply BitVec.eq_of_getLsbD_eq
    intro k hk
    have hm : (0xF0000000#32).getLsbD k = decide (28 ≤ k) := by
      revert k
      decide
    rw [BitVec.getLsbD_and, hm]
    by_cases h28 : 28 ≤ k
    · have : w.getLsbD k = false := by
        rw [← BitVec.testBit_toNat]
        exact Nat.testBit_lt_two_pow (lt_of_lt_of_le (by omega) (Nat.pow_le_pow_right (by omega) h28))
      simp [this]
    · simp [h28]
  · refine ⟨(0x80000000#32, 0x80000000#32), by simp [reservedRows], ?_⟩
    have h8 := of_decide_eq_true h
    have hb : w.getLsbD 31 = true := by
      rw [← BitVec.testBit_toNat, Nat.testBit_eq_decide_div_mod_eq]
      simp only [decide_eq_true_eq]
      omega
    exact single_bit_matches (b := 31) hb
  · obtain ⟨b, hb, hs⟩ := rsv_bit_set (w := w) (fun e => h (by rw [← rsvField_toNat, e]; rfl))
    exact ⟨(1#32 <<< (16 + b), 1#32 <<< (16 + b)),
      List.mem_append_right _ (List.mem_map.2 ⟨b, List.mem_range.2 hb, rfl⟩), single_bit_matches hs⟩

namespace Laws.TableRow

/-- The encoding of a well-formed command matches its row of the opcode table. -/
def Statement (i : Instr) : Prop :=
  i.wellFormed = true →
    match definedRow i with
    | some row => matchesRow (encode i) row = true
    | none => reservedRows.any (matchesRow (encode i)) = true

theorem process : Statement .process := fun _ => upper_half_matches rfl

theorem getByte (i : Byte) : Statement (.getByte i) := fun _ => upper_half_matches rfl

theorem getInt (i j : Byte) : Statement (.getInt i j) := fun _ => upper_half_matches rfl

theorem getLong (i j : Byte) : Statement (.getLong i j) := fun _ => upper_half_matches rfl

theorem count : Statement .count := fun _ => upper_half_matches rfl

theorem isFull : Statement .isFull := fun _ => upper_half_matches rfl

theorem isEmpty : Statement .isEmpty := fun _ => upper_half_matches rfl

theorem reserved (word : Word) : Statement (.reserved word) := fun h => reserved_matches h

end Laws.TableRow

end Sys2Proof
end

