-- ==== Sys2Proof/Laws/Sync.lean ====
section
/-! SUPPORT. BUF_SYNC on the list of live bytes, and the invariant's parts it keeps (41_sync_checksum.md R76). -/

namespace Sys2Proof.Machine

variable {s : State}

theorem live_eq_cons (h : s.liveCount ≠ 0) : s.live = s.bufPeek 0 :: s.live.tail := by
  have hl : 0 < s.live.length := by rw [live_length]; omega
  rw [← live_getElem hl]
  exact (List.cons_getElem_drop_succ (h := hl)).symm.trans (by simp)

/-! ### `placed`: what every buffer operation keeps -/

theorem placed_iff : s.placed = true ↔ s.head < s.capacity ∧ s.tail < s.capacity ∧ Memory.wf s.store = true ∧
    s.store.all (fun c => c.1 < s.capacity) = true := by
  simp [State.placed, and_assoc]

theorem bufPop_placed (h : s.placed = true) : s.bufPop.2.placed = true := by
  by_cases h0 : s.liveCount = 0
  · rwa [bufPop_empty h0]
  · rw [bufPop_nonempty h0]
    exact placed_iff.2 ⟨Nat.mod_lt _ (capacity_pos s), (placed_iff.1 h).2⟩

theorem bufPush_placed (h : s.placed = true) (b : Byte) : (s.bufPush b).placed = true := by
  cases hf : s.bufFull
  · obtain ⟨hh, -, hw, ha⟩ := placed_iff.1 h
    rw [bufPush_room hf]
    refine placed_iff.2 ⟨hh, Nat.mod_lt _ (capacity_pos s), write_wf hw _ _, List.all_eq_true.2 fun c hc => ?_⟩
    rcases mem_write hc with he | hc
    · refine decide_eq_true ?_
      rw [he]
      exact Nat.mod_lt _ (capacity_pos s)
    · exact List.all_eq_true.1 ha c hc
  · rwa [bufPush_full hf]

/-! ### BUF_SYNC -/

/-- All the loop of BUF_SYNC can do, given fuel for every live byte. -/
theorem syncLoop_spec (fuel : Nat) (s : State) (hh : s.head < s.capacity) (ht : s.tail < s.capacity)
    (hf : s.liveCount ≤ fuel) :
    s.syncLoop fuel = { s with head := (s.syncLoop fuel).head } ∧ (s.syncLoop fuel).head < s.capacity ∧
      (s.syncLoop fuel).live = syncList s.params.marker s.live := by
  induction fuel generalizing s with
  | zero =>
    refine ⟨rfl, hh, ?_⟩
    rw [State.syncLoop, live_eq_nil_iff.2 (by omega)]
    rfl
  | succ n ih =>
    rw [State.syncLoop]
    split
    · rename_i hc
      have hne : s.liveCount ≠ 0 := fun h0 => by simp [(bufEmpty_iff hh ht).2 h0] at hc
      have hcap : s.bufPop.2.capacity = s.capacity := by rw [bufPop_frame]; rfl
      have hpar : s.bufPop.2.params = s.params := by rw [bufPop_frame]
      have htl : s.bufPop.2.tail = s.tail := by rw [bufPop_frame]
      have hhd : s.bufPop.2.head < s.capacity := by
        rw [bufPop_nonempty hne]
        exact Nat.mod_lt _ (capacity_pos s)
      obtain ⟨h1, h2, h3⟩ := ih s.bufPop.2 (by rw [hcap]; exact hhd) (by rw [hcap, htl]; exact ht)
        (by rw [bufPop_liveCount]; omega)
      refine ⟨?_, by rw [← hcap]; exact h2, ?_⟩
      · rw [h1, bufPop_frame]
      · rw [h3, hpar, bufPop_live]
        rw [live_eq_cons hne, syncList, syncList, List.dropWhile_cons_of_pos (by simp [hc.2]), List.tail_cons]
    · rename_i hc
      refine ⟨rfl, hh, ?_⟩
      by_cases h0 : s.liveCount = 0
      · rw [live_eq_nil_iff.2 h0]; rfl
      · have he : s.bufEmpty = false := by
          rw [← Bool.not_eq_true, bufEmpty_iff hh ht]; exact h0
        have hm : s.bufPeek 0 = s.params.marker := by
          by_contra hne
          exact hc ⟨he, hne⟩
        rw [live_eq_cons h0, syncList, List.dropWhile_cons_of_neg (by simp [hm])]

/-- All BUF_SYNC can do: it moves the head, staying in range, past the live bytes before the first marker. -/
theorem bufSync_spec (hh : s.head < s.capacity) (ht : s.tail < s.capacity) :
    s.bufSync = { s with head := s.bufSync.head } ∧ s.bufSync.head < s.capacity ∧
      s.bufSync.live = syncList s.params.marker s.live :=
  syncLoop_spec s.liveCount s hh ht (Nat.le_refl _)

theorem bufSync_placed (h : s.placed = true) : s.bufSync.placed = true := by
  obtain ⟨hh, ht, hs⟩ := placed_iff.1 h
  obtain ⟨he, hlt, -⟩ := bufSync_spec hh ht
  rw [he]
  exact placed_iff.2 ⟨hlt, ht, hs⟩

/-- BUF_SYNC moves the head only, cursors in range or not. -/
theorem syncLoop_frame (fuel : Nat) (s : State) : s.syncLoop fuel = { s with head := (s.syncLoop fuel).head } := by
  induction fuel generalizing s with
  | zero => rfl
  | succ n ih =>
    rw [State.syncLoop]
    split
    · rw [ih, bufPop_frame]
    · rfl

theorem bufSync_frame (s : State) : s.bufSync = { s with head := s.bufSync.head } := syncLoop_frame s.liveCount s

/-- A list that BUF_SYNC has passed is empty or begins with the marker. -/
theorem syncList_head (m : Byte) (bs : List Byte) : syncList m bs = [] ∨ (syncList m bs).head? = some m := by
  induction bs with
  | nil => exact .inl rfl
  | cons b bs ih =>
    by_cases h : b = m
    · exact .inr (by simp [syncList, h])
    · rw [syncList, List.dropWhile_cons_of_pos (by simp [h])]
      exact ih

theorem syncList_length_le (m : Byte) (bs : List Byte) : (syncList m bs).length ≤ bs.length :=
  (List.dropWhile_sublist _).length_le

/-- A list that is empty or begins with the marker is left as it is. -/
theorem syncList_of_head {m : Byte} {bs : List Byte} (h : bs = [] ∨ bs.head? = some m) : syncList m bs = bs := by
  rcases h with rfl | h
  · rfl
  · cases bs with
    | nil => rfl
    | cons b bs =>
      simp only [List.head?_cons, Option.some.injEq] at h
      rw [syncList, List.dropWhile_cons_of_neg (by simp [h])]

/-- `synced` in terms of the live bytes. -/
theorem synced_iff (hh : s.head < s.capacity) (ht : s.tail < s.capacity) :
    s.synced = true ↔ s.live = [] ∨ s.live.head? = some s.params.marker := by
  simp only [State.synced, Bool.or_eq_true, bufEmpty_iff hh ht, beq_iff_eq, live_eq_nil_iff]
  by_cases h0 : s.liveCount = 0
  · simp [h0]
  · rw [live_eq_cons h0]
    simp [h0]

/-- The checks of the validator read the live bytes only. -/
theorem chkXor_congr {t : State} (hp : t.params.payloadLen = s.params.payloadLen) (h : t.live = s.live) :
    t.chkXor = s.chkXor := by
  simp only [State.chkXor, hp, bufPeek_eq_live, h]

theorem checksumByte_congr {t : State} (hp : t.params.payloadLen = s.params.payloadLen) (h : t.live = s.live) :
    t.checksumByte = s.checksumByte := by
  simp only [State.checksumByte, hp, bufPeek_eq_live, h]

theorem chkOk_congr {t : State} (hp : t.params.payloadLen = s.params.payloadLen) (h : t.live = s.live) :
    t.chkOk = s.chkOk := by
  simp only [State.chkOk, chkXor_congr hp h, checksumByte_congr hp h]

/-- CHK_XOR is the XOR of the payload bytes. -/
theorem chkXor_eq_xorBytes (s : State) : s.chkXor = xorBytes s.payload := by
  simp only [State.chkXor, xorBytes, State.payload, List.foldl_map]

end Sys2Proof.Machine
end

