-- ==== Sys2Proof/Laws/Process.lean ====
section
/-! SUPPORT. The steps of the decode sequencer: which step `SEQ` selects, and all each one can do (42_decode.md R82). -/

namespace Sys2Proof.Machine

variable {s : State}

/-! ### Which step runs -/

theorem exec_process_idle (h : s.seq = .idle) : exec .process s = .next (s.goto .s1) := by
  simp only [exec, execProcess, h]

theorem exec_process_s1 (h : s.seq = .s1) : exec .process s = .next s.stepS1 := by
  simp only [exec, execProcess, h]

theorem exec_process_s2 (h : s.seq = .s2) : exec .process s = .next s.stepS2 := by
  simp only [exec, execProcess, h]

theorem exec_process_s3 (h : s.seq = .s3) : exec .process s = .next s.stepS3 := by
  simp only [exec, execProcess, h]

theorem exec_process_s4 (h : s.seq = .s4) : exec .process s = .next s.stepS4 := by
  simp only [exec, execProcess, h]

theorem exec_process_s5 (h : s.seq = .s5) : exec .process s = .next s.stepS5 := by
  simp only [exec, execProcess, h]

theorem exec_process_s5Ack (h : s.seq = .s5Ack) : exec .process s = .next s.stepS5Ack := by
  simp only [exec, execProcess, h]

theorem exec_process_s6 (h : s.seq = .s6) : exec .process s = .next s.stepS6 := by
  simp only [exec, execProcess, h]

/-- All one step of PROCESS can do, by the step `SEQ` names. -/
theorem exec_process_cases {t : State} (h : exec .process s = .next t) :
    (s.seq = .idle ∧ t = s.goto .s1) ∨ (s.seq = .s1 ∧ t = s.stepS1) ∨ (s.seq = .s2 ∧ t = s.stepS2) ∨
    (s.seq = .s3 ∧ t = s.stepS3) ∨ (s.seq = .s4 ∧ t = s.stepS4) ∨ (s.seq = .s5 ∧ t = s.stepS5) ∨
    (s.seq = .s5Ack ∧ t = s.stepS5Ack) ∨ (s.seq = .s6 ∧ t = s.stepS6) := by
  simp only [exec, execProcess] at h
  cases hq : s.seq <;> simp only [hq, Host.Outcome.next.injEq] at h <;> simp [h]

/-! ### All each step can do -/

/-- S1 pops one byte exactly when `VALID` is set. -/
theorem stepS1_spec (s : State) : s.stepS1 = { s with head := s.stepS1.head, seq := .s2 } ∧
    s.stepS1.live = (if s.valid then s.live.tail else s.live) := by
  by_cases hv : s.valid = true
  · have e : s.stepS1 = s.bufPop.2.goto .s2 := by simp [State.stepS1, hv]
    refine ⟨by rw [e, bufPop_frame]; rfl, ?_⟩
    rw [e, if_pos hv, ← bufPop_live]
    rfl
  · have e : s.stepS1 = s.goto .s2 := by simp [State.stepS1, hv]
    exact ⟨by rw [e]; rfl, by rw [e, if_neg hv]; rfl⟩

/-- The fill's treatment of a byte read while there is room. -/
theorem fillWith_spec (hh : s.head < s.capacity) (ht : s.tail < s.capacity) (hw : Memory.wf s.store = true)
    (hr : s.bufFull = false) (b : Byte) :
    s.fillWith b = { s with store := Memory.write s.store s.tail b, tail := (s.tail + 1) % s.capacity,
                            head := (s.fillWith b).head, reads := s.reads + 1 } ∧
      (s.fillWith b).head < s.capacity ∧ (s.fillWith b).live = syncList s.params.marker (s.live ++ [b]) := by
  have hr' : ({ s with reads := s.reads + 1 } : State).bufFull = false := hr
  have hp : (({ s with reads := s.reads + 1 } : State).bufPush b) =
      { s with store := Memory.write s.store s.tail b, tail := (s.tail + 1) % s.capacity, reads := s.reads + 1 } := by
    rw [bufPush_room hr']
    show ({ s with store := Memory.write s.store (s.tail % s.capacity) b, tail := (s.tail + 1) % s.capacity,
                   reads := s.reads + 1 } : State) = _
    rw [Nat.mod_eq_of_lt ht]
  have hl := bufPush_live (s := { s with reads := s.reads + 1 }) hw hr' b
  rw [State.fillWith]
  obtain ⟨h1, h2, h3⟩ := bufSync_spec (s := ({ s with reads := s.reads + 1 } : State).bufPush b)
    (by rw [hp]; exact hh) (by rw [hp]; exact Nat.mod_lt _ (capacity_pos s))
  refine ⟨by rw [h1, hp], by rw [hp] at h2; rw [hp]; exact h2, ?_⟩
  rw [h3, hl]
  rw [hp]
  rfl

/-- All S4 can do: read, push and synchronize the oldest readable byte, or end the fill. -/
theorem stepS4_cases (s : State) :
    (∃ b rest, s.rxq = b :: rest ∧ s.bufFull = false ∧ s.mayRead = true ∧
      s.stepS4 = ({ s with rxq := rest } : State).fillWith b) ∨
    ((s.rxq = [] ∨ s.bufFull = true ∨ s.mayRead = false) ∧ s.stepS4 = s.goto .s5) := by
  simp only [State.stepS4, State.rxTake]
  split
  · rename_i hc
    cases hq : s.rxq with
    | nil => exact .inr ⟨.inl rfl, rfl⟩
    | cons b rest => exact .inl ⟨b, rest, rfl, hc.1, hc.2, rfl⟩
  · rename_i hc
    refine .inr ⟨.inr ?_, rfl⟩
    cases hf : s.bufFull <;> cases hm : s.mayRead <;> simp_all

/-- All S5 can do: no candidate, a match's first write, the last mismatch, or a retry. -/
theorem stepS5_cases (s : State) :
    (s.bufFull = false ∧ s.stepS5 = s.goto .s6) ∨
    (s.bufFull = true ∧ s.chkOk = true ∧ s.stepS5 = (s.txWrite s.params.ackMarker).goto .s5Ack) ∨
    (s.bufFull = true ∧ s.chkOk = false ∧ s.retriesSpent = true ∧ s.stepS5 = s.bufPop.2.bufSync.goto .s6) ∨
    (s.bufFull = true ∧ s.chkOk = false ∧ s.retriesSpent = false ∧
      s.stepS5 = { s.bufPop.2 with retries := s.retries + 1, seq := .s3 }) := by
  simp only [State.stepS5, State.mismatch]
  cases hf : s.bufFull <;> cases hc : s.chkOk <;> cases hr : s.retriesSpent <;> simp

/-- A command other than PROCESS only responds. -/
theorem exec_other {i : Instr} (h : i ≠ .process) (s : State) : ∃ v, exec i s = .next (s.respond v) := by
  cases i with
  | process => exact absurd rfl h
  | getByte a => exact ⟨_, rfl⟩
  | getInt a b => exact ⟨_, rfl⟩
  | getLong a b => exact ⟨_, rfl⟩
  | count => exact ⟨_, rfl⟩
  | isFull => exact ⟨_, rfl⟩
  | isEmpty => exact ⟨_, rfl⟩
  | reserved w => exact ⟨_, rfl⟩

end Sys2Proof.Machine
end

