-- ==== Sys2Proof/Laws/Step.lean ====
section
/-! SUPPORT. All a step can do, said once: what every proof about `step` starts from. -/

namespace Sys2Proof.Machine

variable {s t : State}

/-- All a step that has a next state can do: a reset, an idle block, a command begun, or a PROCESS that goes on. -/
theorem step_cases (h : step s = .next t) : s.params.Legal ∧
    ((s.nextTurn.rst = true ∧ t = s.takeTurn.assertReset) ∨
     (s.nextTurn.rst = false ∧ s.seq = .idle ∧ s.nextTurn.cmd = none ∧ t = s.takeTurn) ∨
     (s.nextTurn.rst = false ∧ s.seq = .idle ∧ ∃ w, s.nextTurn.cmd = some w ∧ exec (decode w) s.takeTurn = .next t) ∨
     (s.nextTurn.rst = false ∧ s.seq ≠ .idle ∧ s.nextTurn.cmd = none ∧ exec .process s.takeTurn = .next t)) := by
  unfold step State.selectMove at h
  by_cases hl : s.params.Legal
  · refine ⟨hl, ?_⟩
    rw [if_neg (not_not.2 hl)] at h
    cases hr : s.nextTurn.rst
    · rw [hr] at h
      simp only [Bool.false_eq_true, if_false] at h
      cases hq : s.seq <;> cases hc : s.nextTurn.cmd <;> simp only [hq, hc] at h <;> simp_all
    · rw [hr] at h
      simp_all
  · rw [if_pos hl] at h
    cases h

/-- A step with the reset pin asserted. -/
theorem step_reset (hl : s.params.Legal) (hr : s.nextTurn.rst = true) : step s = .next s.takeTurn.assertReset := by
  simp [step, State.selectMove, hl, hr]

/-- A step of an idle block that is offered no command. -/
theorem step_idle (hl : s.params.Legal) (hr : s.nextTurn.rst = false) (hq : s.seq = .idle)
    (hc : s.nextTurn.cmd = none) : step s = .next s.takeTurn := by
  simp [step, State.selectMove, hl, hr, hq, hc]

/-- A step of an idle block that is offered a command word. -/
theorem step_command {w : Word} (hl : s.params.Legal) (hr : s.nextTurn.rst = false) (hq : s.seq = .idle)
    (hc : s.nextTurn.cmd = some w) : step s = exec (decode w) s.takeTurn := by
  simp [step, State.selectMove, hl, hr, hq, hc]

/-- A step of a PROCESS in execution. -/
theorem step_busy (hl : s.params.Legal) (hr : s.nextTurn.rst = false) (hq : s.seq ≠ .idle)
    (hc : s.nextTurn.cmd = none) : step s = exec .process s.takeTurn := by
  unfold step State.selectMove
  rw [if_neg (not_not.2 hl), hr, hc]
  cases h : s.seq <;> simp_all

/-- The next turn is the turn 0 ahead. -/
theorem turnAt_zero (s : State) : s.turnAt 0 = s.nextTurn := by
  cases h : s.script <;> simp [State.turnAt, State.nextTurn, h]

/-- Taking a turn brings the later turns one nearer. -/
theorem turnAt_takeTurn (s : State) (k : Nat) : s.takeTurn.turnAt k = s.turnAt (k + 1) := by
  cases h : s.script <;> simp [State.turnAt, State.takeTurn, h, Nat.add_comm, Nat.add_left_comm]

/-- The turns ahead depend on the script and the clock only. -/
theorem turnAt_congr {u : State} (hs : u.script = s.script) (hc : u.clock = s.clock) (k : Nat) :
    u.turnAt k = s.turnAt k := by
  simp only [State.turnAt, hs, hc]

end Sys2Proof.Machine
end

