-- ==== Sys2Proof/Tests/Slice0.lean ====
section
/-! SUPPORT. Tests of the model on the vectors of 95_test_vectors.md, and, for every statement of Obligations.lean with
hypotheses, a concrete state and operands that meet them (a witness for each clause, at the boundary of its range). -/

open Sys2Proof Sys2Proof.Machine

namespace Sys2Proof.Tests

/-! ### States -/

/-- An instance with `N = 3`, `C = 6`, its cursors, cells, `VALID` and `SEQ`. -/
def block (head tail : Nat) (cells : List Host.Cell) (valid : Bool) (seq : Seq) : State :=
  { State.reset with head := head, tail := tail, store := cells, valid := valid, seq := seq }

def goodCells : List Host.Cell := [(0, 0x73#8), (1, 0x01#8), (2, 0x02#8), (3, 0x03#8)]

/-- Live `73 01 02 03 00`, the frame of V1. -/
def good (valid : Bool) (seq : Seq) : State := block 0 5 goodCells valid seq

/-- Live `73 01 02 03 01`, the corrupt frame of V2. -/
def bad (seq : Seq) : State := block 0 5 (goodCells ++ [(4, 0x01#8)]) false seq

/-- Live `73 01 02`, across the end of the storage. -/
def wrapped (valid : Bool) (seq : Seq) : State := block 4 1 [(0, 0x02#8), (4, 0x73#8), (5, 0x01#8)] valid seq

/-- No live byte, away from 0. -/
def empty (seq : Seq) : State := block 3 3 [] false seq

def given (s : State) (rxq : List Byte) (script : List Turn) : State := { s with rxq := rxq, script := script }

def quiet (n : Nat) : List Turn := List.replicate n Turn.quiet

/-- The host issues PROCESS, then nothing happens for `n` turns. -/
def startProcess (n : Nat) : List Turn := Turn.issue 0x10000000#32 :: quiet n

def limited (s : State) (retry drain : Limit) : State :=
  { s with params := { s.params with retryLimit := retry, drainLimit := drain } }

def v1Frame : List Byte := [0x73#8, 0x01#8, 0x02#8, 0x03#8, 0x00#8]

def v1Payload : List Byte := [0x01#8, 0x02#8, 0x03#8]

/-- The block after P1 (95_test_vectors.md section 2.5): `N = 4`, payload `12 34 56 78`. -/
def afterP1 (mode : GetIntMode) : State :=
  { State.reset with
    params := { Config.defaultParams with payloadLen := 4, getIntMode := mode }
    tail := 6, valid := true
    store := [(0, 0x73#8), (1, 0x12#8), (2, 0x34#8), (3, 0x56#8), (4, 0x78#8), (5, 0x08#8)] }

/-- The last response of a command. -/
def response : Host.Outcome State Fault Refusal → Option Word
  | .next s => s.rsplog.getLast?
  | .fault _ => none
  | .refused _ => none

/-- The state after a command. -/
def after : Host.Outcome State Fault Refusal → Option State
  | .next s => some s
  | .fault _ => none
  | .refused _ => none

/-! ### Well-formedness and decoding -/

theorem test_wellFormed_refuses_unreserved : (Instr.reserved 0x10000000#32).wellFormed = false := by decide

theorem test_wellFormed_accepts_reserved : (Instr.reserved 0x10010000#32).wellFormed = true := by decide

/-- `OP` 0001, `RSV` 0, operands ignored (95_test_vectors.md 2.7). -/
theorem test_decode_process : decode 0b00010000000000001111111111111111#32 = .process := by decide

theorem test_decode_getByte : decode 0b00100000000000000000001011111111#32 = .getByte 2#8 := by decide

theorem test_decode_getInt : decode 0b00110000000000001111111100000000#32 = .getInt 255#8 0#8 := by decide

theorem test_decode_getLong : decode 0b01000000000000000000001100000000#32 = .getLong 3#8 0#8 := by decide

theorem test_decode_count : decode 0b01010000000000000000000000000000#32 = .count := by decide

theorem test_decode_isFull : decode 0b01100000000000000000000000000000#32 = .isFull := by decide

/-- Q7: the operand bits are ignored. -/
theorem test_decode_isEmpty : decode 0b01110000000000001111111111111111#32 = .isEmpty := by decide

theorem test_decode_reserved : decode 0b00010000000000010000000000000000#32 = .reserved 0x10010000#32 := by decide

theorem test_decode_all_zero : decodeTableWord 32 0 = some (.reserved 0#32) := by decide

/-! ### Commands, one step each -/

/-- V1, step S5: the match writes `ACK_MARKER` first. -/
theorem test_process_match : (after (exec .process (good false .s5))).map (fun t => (t.txlog, t.seq)) =
    some ([0x61#8], .s5Ack) := by decide

/-- V2, step S5: the mismatch pops the marker, `RETRIES <- 1`. -/
theorem test_process_mismatch : (after (exec .process (bad .s5))).map (fun t => (t.head, t.retries, t.txlog, t.seq)) =
    some (1, 1, [], .s3) := by decide

/-- A1 and A2: offset 1, and offset `N`, which is not the checksum. -/
theorem test_getByte : response (exec (.getByte 1#8) (afterP1 .intended)) = some 0x00000034#32 ∧
    response (exec (.getByte 4#8) (afterP1 .intended)) = some 0x00000000#32 := by decide

/-- A4 and A4d in both modes. -/
theorem test_getInt : response (exec (.getInt 0#8 1#8) (afterP1 .intended)) = some 0x00001234#32 ∧
    response (exec (.getInt 0#8 1#8) (afterP1 .reference)) = some 0x00000000#32 ∧
    response (exec (.getInt 0#8 4#8) (afterP1 .reference)) = some 0x00001200#32 := by decide

/-- A7: composition pairs. -/
theorem test_compositions : composeIntended 0xAB#8 0xCD#8 = 0xABCD#16 ∧ composeReference 0x01#8 0x02#8 = 0x0400#16 ∧
    composeReference 0x03#8 0x07#8 = 0x8000#16 ∧ composeReference 0x01#8 0x08#8 = 0x0000#16 := by decide

/-- A5, A5b, A5c, A5g. -/
theorem test_getLong : response (exec (.getLong 0#8 3#8) (afterP1 .intended)) = some 0x12345678#32 ∧
    response (exec (.getLong 3#8 0#8) (afterP1 .intended)) = some 0x78563412#32 ∧
    response (exec (.getLong 1#8 1#8) (afterP1 .intended)) = some 0x00000034#32 ∧
    response (exec (.getLong 0#8 4#8) (afterP1 .intended)) = some 0x34567800#32 := by decide

/-- Q2, and B11: the count is not negative. -/
theorem test_count : response (exec .count (good true .idle)) = some 5#32 ∧
    response (exec .count (wrapped false .idle)) = some 3#32 := by decide

/-- Q1 and Q2. -/
theorem test_isFull : response (exec .isFull State.reset) = some 0#32 ∧
    response (exec .isFull (good true .idle)) = some 1#32 := by decide

/-- Q1 and B14: empty away from 0. -/
theorem test_isEmpty : response (exec .isEmpty State.reset) = some 1#32 ∧
    response (exec .isEmpty (empty .idle)) = some 1#32 ∧ response (exec .isEmpty (good true .idle)) = some 0#32 := by decide

/-- R1: the word `0x00000000` answers 0 and leaves `VALID`. -/
theorem test_reserved : (after (step ((good true .idle).withCommand 0#32))).map (fun t => (t.rsplog, t.valid)) =
    some ([0#32], true) := by decide

/-! ### The internal operations -/

/-- B3, B4, B5, B6, B9 of 95_test_vectors.md section 2.1. -/
theorem test_buffer_vectors :
    (good false .s4).bufPush 0x55#8 = good false .s4 ∧
    (((block 1 5 (goodCells.drop 1) false .s4).bufPush 0x09#8).tail = 0) ∧
    (empty .s5).bufPop = (0x00#8, empty .s5) ∧
    ((block 5 1 [(0, 0x01#8), (5, 0x73#8)] false .s5).bufPop.1 = 0x73#8 ∧
      (block 5 1 [(0, 0x01#8), (5, 0x73#8)] false .s5).bufPop.2.head = 0) ∧
    (wrapped false .s4).bufPeek 2 = 0x02#8 ∧ (wrapped false .s4).bufPeek 3 = 0x00#8 := by decide

/-- S3 and S5 of section 2.2. -/
theorem test_sync_vectors :
    (block 0 4 [(0, 0x01#8), (1, 0x02#8), (2, 0x73#8), (3, 0x05#8)] false .s3).bufSync.live = [0x73#8, 0x05#8] ∧
    (block 0 3 [(0, 0x05#8), (1, 0x73#8), (2, 0x73#8)] false .s3).bufSync.live = [0x73#8, 0x73#8] := by decide

/-- K1, K2 and K4a of section 2.3. -/
theorem test_checksum_vectors : (good false .s5).chkOk = true ∧ (bad .s5).chkOk = false ∧
    (block 0 5 [(0, 0x73#8), (1, 0x73#8), (2, 0x01#8), (3, 0x02#8), (4, 0x30#8)] false .s5).chkXor = 0x70#8 := by decide

/-! ### The hypotheses of the statements are met -/

theorem witness_DecodeEncodeAgree : (Instr.getLong 255#8 255#8).wellFormed = true ∧
    (Instr.reserved 0xFFFFFFFF#32).wellFormed = true := by decide

theorem witness_OpcodeSelectsCommand :
    (Word.rsv 0x1000FFFF#32 = 0 ∧ Word.op 0x1000FFFF#32 = 1) ∧ (Word.rsv 0x2000FFFF#32 = 0 ∧ Word.op 0x2000FFFF#32 = 2) ∧
    (Word.rsv 0x3000FFFF#32 = 0 ∧ Word.op 0x3000FFFF#32 = 3) ∧ (Word.rsv 0x4000FFFF#32 = 0 ∧ Word.op 0x4000FFFF#32 = 4) ∧
    (Word.rsv 0x50000000#32 = 0 ∧ Word.op 0x50000000#32 = 5) ∧ (Word.rsv 0x60000000#32 = 0 ∧ Word.op 0x60000000#32 = 6) ∧
    (Word.rsv 0x70000000#32 = 0 ∧ Word.op 0x70000000#32 = 7) := by decide

theorem witness_ReservedWordsExecuteAsNothing : decode 0x0FFFFFFF#32 = .reserved 0x0FFFFFFF#32 ∧
    decode 0x80000000#32 = .reserved 0x80000000#32 ∧ decode 0x18000000#32 = .reserved 0x18000000#32 := by decide

theorem witness_OperandFieldsUnsignedOrIgnored : decode 0x2000FF00#32 = .getByte 255#8 ∧
    decode 0x3000FF80#32 = .getInt 255#8 128#8 ∧ decode 0x400000FF#32 = .getLong 0#8 255#8 ∧
    (0x200005FF#32 : Word).toNat / 256 = (0x20000500#32 : Word).toNat / 256 ∧ decode 0x20000500#32 = .getByte 5#8 ∧
    (0x1000FFFF#32 : Word).toNat / 65536 = (0x10000000#32 : Word).toNat / 65536 ∧ decode 0x10000000#32 = .process ∧
    decode 0x50000000#32 = .count ∧ decode 0x60000000#32 = .isFull ∧ decode 0x70000000#32 = .isEmpty := by decide

/-- For StepRunsIssuedCommand. -/
theorem witness_StepRunsIssuedCommand : let s := State.reset.withCommand 0x50000000#32
    s.params.Legal ∧ s.seq = .idle ∧ s.nextTurn.rst = false ∧ s.nextTurn.cmd = some 0x50000000#32 := by decide

/-- For StepContinuesProcess, with a byte arriving inside the command. -/
theorem witness_StepContinuesProcess : let s := given (good false .s5) [] [Turn.arrive [0x73#8]]
    s.params.Legal ∧ s.seq ≠ .idle ∧ s.nextTurn.rst = false ∧ s.nextTurn.cmd = none := by decide

/-- For ResetPinAtAnyTime: between the two acknowledgment writes (P15). -/
theorem witness_ResetPinAtAnyTime : let s := given (good false .s5Ack) [] [⟨true, [], none⟩]
    s.params.Legal ∧ s.nextTurn.rst = true := by decide

theorem witness_IdleBlockDoesNothing : let s := given (good true .idle) [] [Turn.arrive [0x73#8]]
    s.params.Legal ∧ s.seq = .idle ∧ s.nextTurn.rst = false ∧ s.nextTurn.cmd = none := by decide

/-- For the three clauses of StepRefusesOnlyImpossibleMoves: each side can be met. -/
theorem witness_StepRefusesOnlyImpossibleMoves :
    ¬ ({ State.reset with params := { Config.defaultParams with payloadLen := 257 } } : State).params.Legal ∧
    (let s := given (good false .s4) [] [Turn.issue 0x50000000#32]
     s.params.Legal ∧ s.nextTurn.rst = false ∧ s.seq ≠ .idle ∧ s.nextTurn.cmd ≠ none) ∧
    (let s := given (good false .s4) [] [⟨true, [], some 0x50000000#32⟩]
     s.params.Legal ∧ s.nextTurn.rst = true) := by decide

/-- For PushAppendsOrDrops, PopRemovesHead, PeekReadsLiveRegion and SyncDiscardsUpToMarker: full, one below full, empty,
across the end of the storage. -/
theorem witness_buffer_operations :
    ((good false .s4).placed = true ∧ (good false .s4).liveCount = (good false .s4).capacity - 1) ∧
    ((block 4 2 [(4, 0x73#8)] false .s4).placed = true ∧
      (block 4 2 [(4, 0x73#8)] false .s4).liveCount = (block 4 2 [(4, 0x73#8)] false .s4).capacity - 2) ∧
    ((empty .s4).placed = true ∧ (empty .s4).liveCount = 0) ∧
    ((wrapped false .s4).placed = true ∧ (wrapped false .s4).liveCount ≤ 3 ∧ 2 < (wrapped false .s4).liveCount) := by decide

/-- For the clause on BUF_SYNC of SequencerNeverPushesFullNorPopsEmpty: a live head other than `MARKER`, an empty buffer, and a
head equal to `MARKER`. -/
theorem witness_each_pass_of_BUF_SYNC :
    (let u := block 1 3 [(1, 0x05#8), (2, 0x73#8)] false .s3
     u.placed = true ∧ u.liveCount ≠ 0 ∧ u.bufPeek 0 ≠ u.params.marker) ∧
    ((empty .s3).placed = true ∧ (empty .s3).liveCount = 0) ∧
    ((wrapped false .s3).placed = true ∧ (wrapped false .s3).bufPeek 0 = (wrapped false .s3).params.marker) := by decide

/-- For the clauses on S1, S5 and S4 of SequencerNeverPushesFullNorPopsEmpty. -/
theorem witness_SequencerNeverPushesFullNorPopsEmpty :
    ((good true .s1).Inv ∧ (good true .s1).valid = true ∧ exec .process (good true .s1) = .next (good true .s1).stepS1) ∧
    ((bad .s5).Inv ∧ (bad .s5).stepS5.head ≠ (bad .s5).head ∧ exec .process (bad .s5) = .next (bad .s5).stepS5) ∧
    (let s := given (wrapped false .s4) [0x03#8] []
     s.Inv ∧ s.stepS4.rxq ≠ s.rxq ∧ exec .process s = .next s.stepS4) :=
  ⟨⟨by decide, by decide, rfl⟩, ⟨by decide, by decide, rfl⟩, ⟨by decide, by decide, rfl⟩⟩

/-- For PushThenSyncKeepsHead: S6, S7 and S8 of 95_test_vectors.md. -/
theorem witness_PushThenSyncKeepsHead :
    ((empty .s4).placed = true ∧ (empty .s4).synced = true ∧ (empty .s4).bufFull = false ∧ (empty .s4).liveCount = 0 ∧
      (0x05#8 : Byte) ≠ (empty .s4).params.marker ∧ (0x73#8 : Byte) = (empty .s4).params.marker) ∧
    ((wrapped false .s4).placed = true ∧ (wrapped false .s4).synced = true ∧ (wrapped false .s4).bufFull = false ∧
      (wrapped false .s4).liveCount ≠ 0) := by decide

/-- For the four clauses of ChecksumDetectsOneBit: V1; bit 7 of the checksum flipped; K3; K7. -/
theorem witness_ChecksumDetectsOneBit :
    (v1Payload.length = (good false .s5).params.payloadLen ∧
      (good false .s5).live = frameOf (good false .s5).params.marker v1Payload) ∧
    ((good false .s5).bufFull = true ∧ (good false .s5).chkOk = true ∧ 4 ≤ (good false .s5).params.payloadLen + 1 ∧
      (block 0 5 (goodCells ++ [(4, 0x80#8)]) false .s5).params = (good false .s5).params ∧
      (block 0 5 (goodCells ++ [(4, 0x80#8)]) false .s5).live =
        (good false .s5).live.set 4 ((good false .s5).bufPeek 4 ^^^ (1#8 <<< 7))) ∧
    ((block 0 5 [(0, 0x73#8), (2, 0x03#8), (3, 0x03#8)] false .s5).params = (good false .s5).params ∧
      (block 0 5 [(0, 0x73#8), (2, 0x03#8), (3, 0x03#8)] false .s5).live =
        ((good false .s5).live.set 1 ((good false .s5).bufPeek 1 ^^^ (1#8 <<< 0))).set 2
          ((good false .s5).bufPeek 2 ^^^ (1#8 <<< 0))) ∧
    ((block 0 5 (goodCells.drop 1) false .s5).params = (good false .s5).params ∧
      (block 0 5 (goodCells.drop 1) false .s5).live = (good false .s5).live.set 0 0x00#8) := by decide

/-- For ProcessIsAccepted, ProcessPopsOneOldByte (both clauses), ProcessClearsValid, ProcessSynchronizes and
ProcessRespondsValid. -/
theorem witness_process_steps :
    (good true .idle).seq = .idle ∧ ((good true .s1).Inv ∧ (good true .s1).seq = .s1 ∧ (good true .s1).valid = true) ∧
    ((empty .s1).Inv ∧ (empty .s1).seq = .s1 ∧ (empty .s1).valid = false) ∧ (good true .s2).seq = .s2 ∧
    ((block 1 5 (goodCells.drop 1) false .s3).Inv ∧ (block 1 5 (goodCells.drop 1) false .s3).seq = .s3) ∧
    (good true .s6).seq = .s6 := by decide

/-- For ProcessFillsByteByByte: the last byte a limit admits into the last free place; and each reason to end the fill. -/
theorem witness_ProcessFillsByteByByte :
    (let s := limited (given (block 0 4 goodCells false .s4) [0x00#8] []) .unbounded (.atMost 1)
     s.Inv ∧ s.seq = .s4 ∧ s.rxq = 0x00#8 :: [] ∧ s.liveCount = s.capacity - 2 ∧
       s.params.drainLimit = .atMost 1 ∧ s.reads < 1) ∧
    ((empty .s4).Inv ∧ (empty .s4).rxq = []) ∧
    ((good false .s4).Inv ∧ (good false .s4).liveCount = (good false .s4).capacity - 1) ∧
    ((limited (empty .s4) .unbounded (.atMost 0)).Inv ∧ (limited (empty .s4) .unbounded (.atMost 0)).seq = .s4 ∧
      (limited (empty .s4) .unbounded (.atMost 0)).params.drainLimit = .atMost 0 ∧
      0 ≤ (limited (empty .s4) .unbounded (.atMost 0)).reads) := by decide

theorem witness_ProcessEndsWithoutCandidate :
    ((block 0 4 goodCells false .s5).Inv ∧ (block 0 4 goodCells false .s5).seq = .s5 ∧
      (block 0 4 goodCells false .s5).liveCount < (block 0 4 goodCells false .s5).capacity - 1) ∧
    ((empty .s5).Inv ∧ (empty .s5).liveCount < (empty .s5).capacity - 1) := by decide

theorem witness_ProcessAcknowledgesMatch : (good false .s5).seq = .s5 ∧
    (good false .s5).liveCount = (good false .s5).capacity - 1 ∧ (good false .s5).chkOk = true := by decide

/-- For ProcessRetriesAfterMismatch: without a limit, and one retry below the limit. -/
theorem witness_ProcessRetriesAfterMismatch :
    ((bad .s5).Inv ∧ (bad .s5).seq = .s5 ∧ (bad .s5).liveCount = (bad .s5).capacity - 1 ∧ (bad .s5).chkOk = false ∧
      (bad .s5).params.retryLimit = .unbounded) ∧
    ((limited (bad .s5) (.atMost 1) .unbounded).Inv ∧
      (limited (bad .s5) (.atMost 1) .unbounded).params.retryLimit = .atMost 1 ∧
      (limited (bad .s5) (.atMost 1) .unbounded).retries ≠ 1) := by decide

/-- For ProcessEndsAtRetryLimit: P8, `RETRY_LIMIT = 0`. -/
theorem witness_ProcessEndsAtRetryLimit : let s := limited (bad .s5) (.atMost 0) .unbounded
    s.Inv ∧ s.seq = .s5 ∧ s.liveCount = s.capacity - 1 ∧ s.chkOk = false ∧ s.params.retryLimit = .atMost 0 ∧
      s.retries = 0 := by decide

/-- For ProcessStepFrame, and its clause about the storage: a fill, which writes it. -/
theorem witness_ProcessStepFrame : let s := given (wrapped false .s4) [0x03#8] []
    exec .process s = .next s.stepS4 ∧ Memory.wf s.store = true ∧ 0 ≠ s.slot s.tail :=
  ⟨rfl, by decide, by decide⟩

/-- For the clauses of GetByteReadsPayload: not valid, offset `N`, offset `N - 1`. -/
theorem witness_GetByteReadsPayload :
    (empty .idle).valid = false ∧ (good true .idle).params.payloadLen ≤ (3#8 : Byte).toNat ∧
    ((good true .idle).Inv ∧ (good true .idle).seq = .idle ∧ (good true .idle).valid = true ∧
      (2#8 : Byte).toNat < (good true .idle).params.payloadLen) := by decide

/-- For the two compositions, and the clause `byte_j >= 8`, at 8. -/
theorem witness_GetInt : (afterP1 .intended).params.getIntMode = .intended ∧
    (afterP1 .reference).params.getIntMode = .reference ∧
    (let s := { afterP1 .reference with store := [(0, 0x73#8), (1, 0x08#8)] }
     s.params.getIntMode = .reference ∧ 8 ≤ (s.payloadByte (0#8 : Byte).toNat).toNat) := by decide

/-- For GetLongKeepsLastFourBytes: walks of four offsets, up and down. -/
theorem witness_GetLongKeepsLastFourBytes : (0#8 : Byte).toNat + 3 ≤ (3#8 : Byte).toNat ∧
    (252#8 : Byte).toNat + 3 ≤ (255#8 : Byte).toNat := by decide

theorem witness_AccessorsArePureAndRepeatable : Instr.getByte 0#8 ≠ .process ∧ Instr.isFull ≠ .process ∧
    exec .isFull (good true .idle) = .next ((good true .idle).respond (bitWord (good true .idle).bufFull)) :=
  ⟨by decide, by decide, rfl⟩

/-- For CountAnswersLiveCount: Q6, `N = 256` and full, the largest count. -/
theorem witness_CountAnswersLiveCount :
    let s := { State.reset with params := { Config.defaultParams with payloadLen := 256 }, tail := 258 }
    s.params.Legal ∧ 258 < s.capacity ∧ (s.head + 258) % s.capacity = s.tail % s.capacity := by decide

/-- For IsFullAnswers and IsEmptyAnswers: full with the cursors across the end, empty, and neither. -/
theorem witness_queries :
    ((block 2 1 [] false .idle).placed = true ∧
      (block 2 1 [] false .idle).head = ((block 2 1 [] false .idle).tail + 1) % (block 2 1 [] false .idle).capacity) ∧
    ((empty .idle).placed = true ∧ (empty .idle).head = (empty .idle).tail) ∧
    ((wrapped false .idle).placed = true ∧ (wrapped false .idle).head ≠ (wrapped false .idle).tail ∧
      (wrapped false .idle).head ≠ ((wrapped false .idle).tail + 1) % (wrapped false .idle).capacity) := by decide

/-- For IsFullIsValidAtRest and PhaseViewAtRest: Ready, Empty and Filling. -/
theorem witness_at_rest : ((good true .idle).Inv ∧ (good true .idle).seq = .idle ∧ (good true .idle).phase = some .ready) ∧
    ((empty .idle).Inv ∧ (empty .idle).phase = some .empty) ∧
    ((wrapped false .idle).Inv ∧ (wrapped false .idle).phase = some .filling) := by decide

/-- For StepKeepsInvariant and StepKeepsParameters: a step inside a command. -/
theorem witness_StepKeepsInvariant : let s := given (bad .s5) [] (quiet 1)
    s.Inv ∧ step s = .next s.takeTurn.stepS5 :=
  ⟨by decide, rfl⟩

/-- For BufferChangesOnlyInProcessOrReset: a command accepted at rest. -/
theorem witness_BufferChangesOnlyInProcessOrReset : let s := given (good true .idle) [] (startProcess 0)
    step s = .next (s.takeTurn.goto .s1) ∧ s.nextTurn.rst = false ∧ s.seq = .idle ∧ (s.takeTurn.goto .s1).seq ≠ .idle :=
  ⟨rfl, by decide, by decide, by decide⟩

/-- For BytesReadInArrivalOrder and WritesAppendAckThenChecksum: a step that reads, and the two that write. -/
theorem witness_transport :
    (let s := given (wrapped false .s4) [0x03#8] (quiet 1)
     step s = .next s.takeTurn.stepS4 ∧ s.takeTurn.stepS4.rxq ≠ s.rxq) ∧
    (let s := given (good false .s5) [] (quiet 1)
     step s = .next s.takeTurn.stepS5 ∧ s.takeTurn.stepS5.seq = .s5Ack ∧ s.takeTurn.stepS5.txlog ≠ s.txlog) ∧
    (let s := given (good false .s5Ack) [] (quiet 1)
     step s = .next s.takeTurn.stepS5Ack ∧ s.takeTurn.stepS5Ack.txlog ≠ s.txlog) :=
  ⟨⟨rfl, by decide⟩, ⟨rfl, by decide, by decide⟩, ⟨rfl, by decide⟩⟩

/-- For ProcessAnswersOnceAndWritesTwoOrNone: a command in execution, one that ends with 0 and one that ends with 1. -/
theorem witness_process_in_execution : let s := given (wrapped false .idle) [] (startProcess 0)
    s.Inv ∧ ProcessRun s [] (s.takeTurn.goto .s1) ∧ (s.takeTurn.goto .s1).seq ≠ .idle :=
  ⟨by decide, .accept _ (by decide) rfl, by decide⟩

/-- One step of a PROCESS in execution, without a reset and with nothing arriving. -/
def advance (u : State) : Option State :=
  if u.seq ≠ .idle ∧ u.nextTurn.rst = false ∧ u.nextTurn.rx = [] then after (step u) else none

def advances : Nat → State → Option State
  | 0, u => some u
  | n + 1, u => (advance u).bind (advances n)

theorem run_of_advances {s a t : State} (n : Nat) (h : ProcessRun s [] a) (hr : advances n a = some t) :
    ProcessRun s [] t := by
  induction n generalizing a with
  | zero =>
    cases hr
    exact h
  | succ n ih =>
    obtain ⟨u, hu, hr⟩ := Option.bind_eq_some_iff.1 hr
    unfold advance at hu
    split at hu
    · rename_i hc
      cases hs : step a with
      | next v =>
        rw [hs] at hu
        cases hu
        exact ih (by simpa [hc.2.2] using ProcessRun.advance [] a u h hc.1 hc.2.1 hs) hr
      | fault r => rw [hs] at hu; cases hu
      | refused r => rw [hs] at hu; cases hu
    · cases hu

/-- A command begun at `s` that ends after `n` more quiet steps as `check` says. -/
theorem run_to_end {s : State} (n : Nat) (valid : Bool) (hs : s.StartsProcess) (hx : s.nextTurn.rx = [])
    (h : step s = .next (s.takeTurn.goto .s1))
    (hn : (advances n (s.takeTurn.goto .s1)).map (fun t => (t.seq, t.valid)) = some (.idle, valid)) :
    ∃ t, ProcessRun s [] t ∧ t.seq = .idle ∧ t.valid = valid := by
  obtain ⟨t, ht, he⟩ := Option.map_eq_some_iff.1 hn
  simp only [Prod.mk.injEq] at he
  exact ⟨t, run_of_advances n (hx ▸ ProcessRun.accept _ hs h) ht, he⟩

/-- For ProcessAnswersOnceAndWritesTwoOrNone, its clause of answer 1: the last byte of V1 completes the frame. -/
theorem witness_process_answers_one : let s := given (block 0 4 goodCells false .idle) [0x00#8] (startProcess 8)
    s.Inv ∧ ∃ t, ProcessRun s [] t ∧ t.seq = .idle ∧ t.valid = true :=
  ⟨by decide, run_to_end 8 true (by decide) rfl rfl (by decide)⟩

/-- For ProcessAnswersOnceAndWritesTwoOrNone, its clause of answer 0, and for LimitsAddNoEndState: a read limit of 1 leaves a
byte in the transport. -/
theorem witness_process_answers_zero :
    let s := given (limited (wrapped false .idle) (.atMost 0) (.atMost 1)) [0x03#8, 0x00#8] (startProcess 7)
    s.Inv ∧ ∃ t, ProcessRun s [] t ∧ t.seq = .idle ∧ t.valid = false :=
  ⟨by decide, run_to_end 7 false (by decide) rfl rfl (by decide)⟩

/-- For FrameRoundTripPastGarbage: P3, three bytes of garbage before the frame of V1, and a read limit that just admits
them. -/
theorem witness_FrameRoundTripPastGarbage :
    let g : List Byte := [0x00#8, 0xFF#8, 0x10#8]
    let s := given (limited State.reset .unbounded (.atMost 8)) (g ++ v1Frame) (startProcess 15)
    s.Inv ∧ s.StartsProcess ∧ s.nextTurn.rx = [] ∧ s.liveCount = 0 ∧ v1Payload.length = s.params.payloadLen ∧
      (∀ b ∈ g, b ≠ s.params.marker) ∧ s.rxq = g ++ frameOf s.params.marker v1Payload ∧
      permits s.params.drainLimit (g.length + s.params.payloadLen + 2) = true ∧
      s.QuietFor 1 (g.length + s.params.payloadLen + 10) ∧ v1Payload[(2#8 : Byte).toNat]? = some 0x03#8 := by decide

/-- For SplitDeliveryOneCommand: P2b, one byte of the rest, and P2d, the whole rest. -/
theorem witness_SplitDeliveryOneCommand :
    (let s := given (wrapped false .idle) [0x03#8] (startProcess 8)
     s.Inv ∧ s.StartsProcess ∧ s.nextTurn.rx = [] ∧ s.valid = false ∧ v1Payload.length = s.params.payloadLen ∧
       s.live = (frameOf s.params.marker v1Payload).take 3 ∧
       s.rxq <+: (frameOf s.params.marker v1Payload).drop 3 ∧ permits s.params.drainLimit s.rxq.length = true ∧
       s.QuietFor 1 (s.rxq.length + 8) ∧ 3 + s.rxq.length < s.params.payloadLen + 2) ∧
    (let s := given (wrapped false .idle) [0x03#8, 0x00#8] (startProcess 9)
     s.Inv ∧ s.StartsProcess ∧ s.nextTurn.rx = [] ∧ s.valid = false ∧
       s.live = (frameOf s.params.marker v1Payload).take 3 ∧
       s.rxq <+: (frameOf s.params.marker v1Payload).drop 3 ∧
       s.QuietFor 1 (s.rxq.length + 8) ∧ 3 + s.rxq.length = s.params.payloadLen + 2) := by decide

/-- For ConsumedFrameIsReleased: P7b, a payload byte equal to `MARKER`. -/
theorem witness_ConsumedFrameIsReleased :
    let s := given (block 0 5 [(0, 0x73#8), (1, 0x73#8), (2, 0x01#8), (3, 0x02#8), (4, 0x70#8)] true .idle) []
      (startProcess 6)
    s.Inv ∧ s.StartsProcess ∧ s.nextTurn.rx = [] ∧ s.valid = true ∧ s.rxq = [] ∧ s.QuietFor 1 7 := by decide

/-- For ProcessEndsUnderDrainLimit: P13, `DRAIN_LIMIT = 3`, and bytes that arrive during the command. -/
theorem witness_ProcessEndsUnderDrainLimit :
    let s := given (limited State.reset .unbounded (.atMost 3)) [0x00#8, 0x00#8]
      (Turn.issue 0x10000000#32 :: List.replicate 19 (Turn.arrive [0x00#8]))
    s.Inv ∧ s.StartsProcess ∧ s.params.drainLimit = .atMost 3 ∧
      4 = (if s.valid then s.liveCount - 1 else s.liveCount) + 3 + 1 ∧ 20 = 3 * 4 + 3 + 5 ∧ s.HostWaits 1 20 := by decide

/-- For HangIsAdmitted: P14, for three steps. -/
theorem witness_HangIsAdmitted :
    let s := given (empty .s4) [] (List.replicate 3 (Turn.arrive [0x00#8]))
    s.Inv ∧ s.params.Legal ∧ s.params.drainLimit = .unbounded ∧ s.seq = .s4 ∧ s.liveCount = 0 ∧ s.rxq = [] ∧
      ∀ k, k < 3 → ∃ b, b ≠ s.params.marker ∧ s.turnAt k = Turn.arrive [b] := by
  refine ⟨by decide, by decide, rfl, rfl, by decide, rfl, fun k hk => ⟨0x00#8, by decide, ?_⟩⟩
  match k, hk with
  | 0, _ => rfl
  | 1, _ => rfl
  | 2, _ => rfl

/-- For DeadStorageIsUnobservable: the storage differs in the byte behind the tail. -/
theorem witness_DeadStorageIsUnobservable :
    let s := wrapped false .s4
    let t := { s with store := [(0, 0x02#8), (1, 0xEE#8), (4, 0x73#8), (5, 0x01#8)] }
    Memory.wf s.store = true ∧ Memory.wf t.store = true ∧ s.SameButDeadStorage t ∧ s.store ≠ t.store :=
  ⟨by decide, by decide, ⟨rfl, by decide⟩, by decide⟩

end Sys2Proof.Tests
end

namespace Sys2Proof.Machine

/-! ### Steps that are refused -/

/-- A step of a state whose `N` is outside `1..256` (93_implementation_defined.md I10). -/
theorem step_noInstance {s : State} (hl : ¬ s.params.Legal) : step s = .refused .noInstance := by
  simp [step, State.selectMove, hl]

/-- A step of a PROCESS in execution that is offered a command word. -/
theorem step_commandWhileBusy {s : State} {w : Word} (hl : s.params.Legal) (hr : s.nextTurn.rst = false)
    (hq : s.seq ≠ .idle) (hc : s.nextTurn.cmd = some w) : step s = .refused .commandWhileBusy := by
  unfold step State.selectMove
  rw [if_neg (not_not.2 hl), hr, hc]
  cases h : s.seq <;> simp_all

/-! ### One check of the fill -/

/-- S4 takes the oldest readable byte while there is room and the reads are within `DRAIN_LIMIT` (42_decode.md R85). -/
theorem stepS4_read {s : State} {b : Byte} {rest : List Byte} (hq : s.rxq = b :: rest) (hf : s.bufFull = false)
    (hm : s.mayRead = true) : s.stepS4 = ({ s with rxq := rest } : State).fillWith b := by
  simp [State.stepS4, State.rxTake, hq, hf, hm]

/-- S4 ends the fill without a byte, without room or at `DRAIN_LIMIT` (42_decode.md R85). -/
theorem stepS4_end {s : State} (h : s.rxq = [] ∨ s.bufFull = true ∨ s.mayRead = false) : s.stepS4 = s.goto .s5 := by
  rcases h with h | h | h <;> simp [State.stepS4, State.rxTake, h]

/-! ### Another value of `XPORT_CFG`

Every function of the state answers the same with another `XPORT_CFG`, and every update of the state commutes with setting
it, so the two sides of 00_scope.md R16 are one step. -/

/-- The state with another `XPORT_CFG` (00_scope.md R16). -/
def State.setXport (s : State) (x : Nat) : State := { s with params := withXport s.params x }

section

variable (s : State) (x : Nat)

@[simp] theorem setXport_liveCount : (s.setXport x).liveCount = s.liveCount := rfl
@[simp] theorem setXport_bufFull : (s.setXport x).bufFull = s.bufFull := rfl
@[simp] theorem setXport_bufEmpty : (s.setXport x).bufEmpty = s.bufEmpty := rfl
@[simp] theorem setXport_bufPeek (k : Nat) : (s.setXport x).bufPeek k = s.bufPeek k := rfl
@[simp] theorem setXport_marker : (s.setXport x).params.marker = s.params.marker := rfl
@[simp] theorem setXport_valid : (s.setXport x).valid = s.valid := rfl
@[simp] theorem setXport_rxq : (s.setXport x).rxq = s.rxq := rfl
@[simp] theorem setXport_chkOk : (s.setXport x).chkOk = s.chkOk := rfl
@[simp] theorem setXport_retriesSpent : (s.setXport x).retriesSpent = s.retriesSpent := rfl
@[simp] theorem setXport_mayRead : (s.setXport x).mayRead = s.mayRead := rfl
@[simp] theorem setXport_payloadByte (i : Nat) : (s.setXport x).payloadByte i = s.payloadByte i := rfl

@[simp] theorem setXport_longLoop (i j fuel k : Nat) (r : Word) :
    (s.setXport x).longLoop i j fuel k r = s.longLoop i j fuel k r := by
  induction fuel generalizing k r with
  | zero => rfl
  | succ n ih => simp only [State.longLoop, setXport_payloadByte, ih]

/-! ### The buffer operations -/

@[simp] theorem setXport_bufPop : (s.setXport x).bufPop.2 = s.bufPop.2.setXport x := by
  by_cases h : s.liveCount = 0
  · rw [bufPop_empty h, bufPop_empty (s := s.setXport x) h]
  · rw [bufPop_nonempty h, bufPop_nonempty (s := s.setXport x) h]
    rfl

@[simp] theorem setXport_bufPush (b : Byte) : (s.setXport x).bufPush b = (s.bufPush b).setXport x := by
  cases h : s.bufFull
  · rw [bufPush_room h, bufPush_room (s := s.setXport x) h]
    rfl
  · rw [bufPush_full h, bufPush_full (s := s.setXport x) h]

theorem setXport_syncLoop (fuel : Nat) : (s.setXport x).syncLoop fuel = (s.syncLoop fuel).setXport x := by
  induction fuel generalizing s with
  | zero => rfl
  | succ n ih =>
    simp only [State.syncLoop, setXport_bufEmpty, setXport_bufPeek, setXport_marker, setXport_bufPop, ih]
    split <;> rfl

@[simp] theorem setXport_bufSync : (s.setXport x).bufSync = s.bufSync.setXport x :=
  setXport_syncLoop s x s.liveCount

/-! ### The steps of PROCESS -/

theorem setXport_stepS1 : (s.setXport x).stepS1 = s.stepS1.setXport x := by
  simp only [State.stepS1, setXport_valid, setXport_bufPop]
  split <;> rfl

theorem setXport_stepS3 : (s.setXport x).stepS3 = s.stepS3.setXport x := by
  simp only [State.stepS3, setXport_bufSync]
  rfl

theorem setXport_fillWith (b : Byte) : (s.setXport x).fillWith b = (s.fillWith b).setXport x := by
  have hb : ({ s.setXport x with reads := s.reads + 1 } : State).bufPush b = _ :=
    setXport_bufPush { s with reads := s.reads + 1 } x b
  exact (congrArg State.bufSync hb).trans (setXport_bufSync _ x)

theorem setXport_stepS4 : (s.setXport x).stepS4 = s.stepS4.setXport x := by
  obtain ⟨b, rest, hq, hf, hm, e⟩ | ⟨h, e⟩ := stepS4_cases s
  · rw [e, stepS4_read (s := s.setXport x) hq hf hm]
    exact setXport_fillWith { s with rxq := rest } x b
  · rw [e, stepS4_end (s := s.setXport x) h]
    rfl

theorem setXport_mismatch : (s.setXport x).mismatch = s.mismatch.setXport x := by
  simp only [State.mismatch, setXport_retriesSpent, setXport_bufPop, setXport_bufSync]
  split <;> rfl

theorem setXport_stepS5 : (s.setXport x).stepS5 = s.stepS5.setXport x := by
  simp only [State.stepS5, setXport_bufFull, setXport_chkOk, setXport_mismatch]
  split
  · rfl
  · split <;> rfl

/-! ### Commands and steps -/

/-- `t` is `s` with the value `x` of `XPORT_CFG`: the relation of the next states (00_scope.md R16). -/
def SameWithXport (x : Nat) (s t : State) : Prop := t = s.setXport x

/-- One step of PROCESS reads no `XPORT_CFG`. -/
theorem exec_process_setXport :
    outcomesRelated (SameWithXport x) (exec .process s) (exec .process (s.setXport x)) := by
  cases hq : s.seq with
  | idle =>
    rw [exec_process_idle hq, exec_process_idle (s := s.setXport x) hq]
    exact rfl
  | s1 =>
    rw [exec_process_s1 hq, exec_process_s1 (s := s.setXport x) hq]
    exact setXport_stepS1 s x
  | s2 =>
    rw [exec_process_s2 hq, exec_process_s2 (s := s.setXport x) hq]
    exact rfl
  | s3 =>
    rw [exec_process_s3 hq, exec_process_s3 (s := s.setXport x) hq]
    exact setXport_stepS3 s x
  | s4 =>
    rw [exec_process_s4 hq, exec_process_s4 (s := s.setXport x) hq]
    exact setXport_stepS4 s x
  | s5 =>
    rw [exec_process_s5 hq, exec_process_s5 (s := s.setXport x) hq]
    exact setXport_stepS5 s x
  | s5Ack =>
    rw [exec_process_s5Ack hq, exec_process_s5Ack (s := s.setXport x) hq]
    exact rfl
  | s6 =>
    rw [exec_process_s6 hq, exec_process_s6 (s := s.setXport x) hq]
    exact rfl

/-- No command reads `XPORT_CFG`. -/
theorem exec_setXport (i : Instr) :
    outcomesRelated (SameWithXport x) (exec i s) (exec i (s.setXport x)) := by
  cases i with
  | process => exact exec_process_setXport s x
  | getLong a b =>
    simp only [exec, execGetLong, setXport_longLoop]
    exact rfl
  | getByte a => exact rfl
  | getInt a b => exact rfl
  | count => exact rfl
  | isFull => exact rfl
  | isEmpty => exact rfl
  | reserved w => exact rfl

/-- A step reads no `XPORT_CFG`: it selects the same move, and the move commutes with setting it. -/
theorem step_setXport : outcomesRelated (SameWithXport x) (step s) (step (s.setXport x)) := by
  by_cases hl : s.params.Legal
  · cases hr : s.nextTurn.rst with
    | true =>
      rw [step_reset hl hr, step_reset (s := s.setXport x) hl hr]
      exact rfl
    | false =>
      by_cases hq : s.seq = .idle
      · cases hc : s.nextTurn.cmd with
        | none =>
          rw [step_idle hl hr hq hc, step_idle (s := s.setXport x) hl hr hq hc]
          exact rfl
        | some w =>
          rw [step_command hl hr hq hc, step_command (s := s.setXport x) hl hr hq hc]
          exact exec_setXport s.takeTurn x (decode w)
      · cases hc : s.nextTurn.cmd with
        | none =>
          rw [step_busy hl hr hq hc, step_busy (s := s.setXport x) hl hr hq hc]
          exact exec_process_setXport s.takeTurn x
        | some w =>
          rw [step_commandWhileBusy hl hr hq hc, step_commandWhileBusy (s := s.setXport x) hl hr hq hc]
          exact rfl
  · rw [step_noInstance hl, step_noInstance (s := s.setXport x) hl]
    exact rfl

end

/-- Settles O60: every case of a step, refusals included, is the same case with another `XPORT_CFG`. -/
theorem transportConfigurationIsUnread : Obligations.TransportConfigurationIsUnread :=
  fun s x => step_setXport s x

/-! ### The state after reset -/

/-- At reset both cursors are 0 and nothing is listed in the storage (10_state.md R39). -/
theorem reset_placed : State.reset.placed = true :=
  placed_iff.2 ⟨capacity_pos _, capacity_pos _, reset_store_wf, rfl⟩

/-- Settles O45: at rest with an empty buffer, so synchronized, and neither full nor `VALID`. -/
theorem resetMeetsInvariant : Obligations.ResetMeetsInvariant :=
  ⟨⟨reset_placed, by decide⟩, by decide⟩

end Sys2Proof.Machine

namespace Sys2Proof.Machine

/-! ### The buffer operations leave the parameters, `VALID` and the counters -/

section

variable (s : State) (b : Byte)

@[simp] theorem bufPop_params : s.bufPop.2.params = s.params := by rw [bufPop_frame]
@[simp] theorem bufPop_valid : s.bufPop.2.valid = s.valid := by rw [bufPop_frame]
@[simp] theorem bufPop_retries : s.bufPop.2.retries = s.retries := by rw [bufPop_frame]
@[simp] theorem bufPop_reads : s.bufPop.2.reads = s.reads := by rw [bufPop_frame]

@[simp] theorem bufSync_params : s.bufSync.params = s.params := by rw [bufSync_frame]
@[simp] theorem bufSync_valid : s.bufSync.valid = s.valid := by rw [bufSync_frame]
@[simp] theorem bufSync_retries : s.bufSync.retries = s.retries := by rw [bufSync_frame]
@[simp] theorem bufSync_reads : s.bufSync.reads = s.reads := by rw [bufSync_frame]

/-- What the fill does with a byte changes the storage, the cursors and `READS` only, cursors in range or not. -/
theorem fillWith_frame : s.fillWith b = { s with
    store := (s.fillWith b).store, head := (s.fillWith b).head, tail := (s.fillWith b).tail, reads := s.reads + 1 } := by
  rw [State.fillWith, bufSync_frame, bufPush_frame]

@[simp] theorem fillWith_params : (s.fillWith b).params = s.params := by rw [fillWith_frame]
@[simp] theorem fillWith_valid : (s.fillWith b).valid = s.valid := by rw [fillWith_frame]
@[simp] theorem fillWith_seq : (s.fillWith b).seq = s.seq := by rw [fillWith_frame]
@[simp] theorem fillWith_retries : (s.fillWith b).retries = s.retries := by rw [fillWith_frame]
@[simp] theorem fillWith_reads : (s.fillWith b).reads = s.reads + 1 := by rw [fillWith_frame]

end

section

variable {s t : State}

/-! ### What the invariant says before each step -/

theorem validIsFull_iff : s.validIsFull = true ↔ s.valid = s.bufFull ∧ (s.valid = true → s.chkOk = true) := by
  cases hv : s.valid <;> simp [State.validIsFull, hv]

theorem withinLimits_iff : s.withinLimits = true ↔
    permits s.params.retryLimit s.retries = true ∧ permits s.params.drainLimit s.reads = true := by
  simp [State.withinLimits]

theorem seqInv_atRest (h : s.seq = .idle ∨ s.seq = .s1) :
    s.seqInv = true ↔ s.synced = true ∧ s.validIsFull = true := by
  rcases h with h | h <;> simp [State.seqInv, h]

theorem seqInv_s2 (h : s.seq = .s2) : s.seqInv = true := by simp [State.seqInv, h]

theorem seqInv_s3 (h : s.seq = .s3) : s.seqInv = true ↔ s.valid = false ∧ s.withinLimits = true := by
  simp [State.seqInv, h]

theorem seqInv_fill (h : s.seq = .s4 ∨ s.seq = .s5) :
    s.seqInv = true ↔ s.valid = false ∧ s.withinLimits = true ∧ s.synced = true := by
  rcases h with h | h <;> simp [State.seqInv, h, and_assoc]

theorem seqInv_s5Ack (h : s.seq = .s5Ack) : s.seqInv = true ↔
    s.valid = false ∧ s.withinLimits = true ∧ s.synced = true ∧ s.bufFull = true ∧ s.chkOk = true := by
  simp [State.seqInv, h, and_assoc]

theorem seqInv_s6 (h : s.seq = .s6) :
    s.seqInv = true ↔ s.withinLimits = true ∧ s.synced = true ∧ s.validIsFull = true := by
  simp [State.seqInv, h, and_assoc]

/-! ### The limits of a PROCESS -/

theorem permits_zero (l : Limit) : permits l 0 = true := by cases l <;> simp [permits]

/-- The read that S4 admits is within `DRAIN_LIMIT` (42_decode.md R85). -/
theorem permits_of_mayRead (h : s.mayRead = true) : permits s.params.drainLimit (s.reads + 1) = true := by
  cases hd : s.params.drainLimit with
  | unbounded => rfl
  | atMost n =>
    simp only [State.mayRead, hd, decide_eq_true_eq] at h
    exact decide_eq_true h

/-- A retry that does not find `RETRIES == RETRY_LIMIT` is within the limit (42_decode.md R87). -/
theorem permits_of_retriesLeft (h : s.retriesSpent = false) (hp : permits s.params.retryLimit s.retries = true) :
    permits s.params.retryLimit (s.retries + 1) = true := by
  cases hr : s.params.retryLimit with
  | unbounded => rfl
  | atMost n =>
    simp only [State.retriesSpent, hr, beq_eq_false_iff_ne] at h
    simp only [permits, hr, decide_eq_true_eq] at hp
    exact decide_eq_true (by omega)

@[simp] theorem bufSync_withinLimits (s : State) : s.bufSync.withinLimits = s.withinLimits := by
  simp [State.withinLimits]

@[simp] theorem bufPop_withinLimits (s : State) : s.bufPop.2.withinLimits = s.withinLimits := by
  simp [State.withinLimits]

/-! ### Synchronized, and no longer full -/

/-- BUF_SYNC leaves a synchronized buffer (41_sync_checksum.md R76). -/
theorem bufSync_synced (h : s.placed = true) : s.bufSync.synced = true := by
  obtain ⟨hh, ht, -, -⟩ := placed_iff.1 h
  obtain ⟨-, -, hl⟩ := bufSync_spec hh ht
  obtain ⟨hh', ht', -, -⟩ := placed_iff.1 (bufSync_placed h)
  rw [synced_iff hh' ht', hl, bufSync_params]
  exact syncList_head _ _

theorem bufSync_liveCount_le (h : s.placed = true) : s.bufSync.liveCount ≤ s.liveCount := by
  obtain ⟨hh, ht, -, -⟩ := placed_iff.1 h
  obtain ⟨-, -, hl⟩ := bufSync_spec hh ht
  rw [← live_length, ← live_length, hl]
  exact syncList_length_le _ _

/-- After a pop and BUF_SYNC there is room for a byte. -/
theorem bufPop_bufSync_notFull (h : s.placed = true) : s.bufPop.2.bufSync.bufFull = false := by
  have hle := bufSync_liveCount_le (bufPop_placed h)
  have hlt := liveCount_lt s
  rw [bufPop_liveCount] at hle
  rw [bufFull_false_iff, bufSync_params, bufPop_params]
  simp only [State.capacity, Params.capacity] at hlt
  omega

/-! ### Every step of PROCESS keeps the cursors and the storage in place -/

theorem stepS1_placed (h : s.placed = true) : s.stepS1.placed = true := by
  simp only [State.stepS1]
  split
  · exact bufPop_placed h
  · exact h

theorem stepS4_placed (h : s.placed = true) : s.stepS4.placed = true := by
  obtain ⟨b, rest, -, -, -, e⟩ | ⟨-, e⟩ := stepS4_cases s
  · rw [e]
    exact bufSync_placed (bufPush_placed (s := { s with rxq := rest, reads := s.reads + 1 }) h b)
  · rw [e]
    exact h

theorem stepS5_placed (h : s.placed = true) : s.stepS5.placed = true := by
  obtain ⟨-, e⟩ | ⟨-, -, e⟩ | ⟨-, -, -, e⟩ | ⟨-, -, -, e⟩ := stepS5_cases s <;> rw [e]
  · exact h
  · exact h
  · exact bufSync_placed (bufPop_placed h)
  · exact bufPop_placed (s := s) h

/-! ### What each step of PROCESS leaves for the next one -/

theorem stepS2_seqInv (s : State) : s.stepS2.seqInv = true :=
  (seqInv_s3 rfl).2 ⟨rfl, withinLimits_iff.2 ⟨permits_zero _, permits_zero _⟩⟩

theorem stepS3_seqInv (hq : s.seq = .s3) (h : s.Inv) : s.stepS3.seqInv = true := by
  obtain ⟨hp, hi⟩ := h
  obtain ⟨hv, hl⟩ := (seqInv_s3 hq).1 hi
  exact (seqInv_fill (.inl rfl)).2
    ⟨(bufSync_valid s).trans hv, (bufSync_withinLimits s).trans hl, bufSync_synced hp⟩

theorem stepS4_seqInv (hq : s.seq = .s4) (h : s.Inv) : s.stepS4.seqInv = true := by
  obtain ⟨hp, hi⟩ := h
  obtain ⟨hv, hl, hs⟩ := (seqInv_fill (.inl hq)).1 hi
  obtain ⟨b, rest, -, -, hm, e⟩ | ⟨-, e⟩ := stepS4_cases s <;> rw [e]
  · refine (seqInv_fill (.inl ?_)).2 ⟨?_, ?_, ?_⟩
    · simpa using hq
    · simpa using hv
    · refine withinLimits_iff.2 ⟨?_, ?_⟩
      · simpa using (withinLimits_iff.1 hl).1
      · simpa using permits_of_mayRead hm
    · exact bufSync_synced (bufPush_placed (s := { s with rxq := rest, reads := s.reads + 1 }) hp b)
  · exact (seqInv_fill (.inr rfl)).2 ⟨hv, hl, hs⟩

theorem stepS5_seqInv (hq : s.seq = .s5) (h : s.Inv) : s.stepS5.seqInv = true := by
  obtain ⟨hp, hi⟩ := h
  obtain ⟨hv, hl, hs⟩ := (seqInv_fill (.inr hq)).1 hi
  obtain ⟨hf, e⟩ | ⟨hf, hc, e⟩ | ⟨-, -, -, e⟩ | ⟨-, -, hr, e⟩ := stepS5_cases s <;> rw [e]
  · exact (seqInv_s6 rfl).2 ⟨hl, hs, validIsFull_iff.2 ⟨hv.trans hf.symm, fun h => absurd h (by simp [hv])⟩⟩
  · exact (seqInv_s5Ack rfl).2 ⟨hv, hl, hs, hf, hc⟩
  · have hv' : s.bufPop.2.bufSync.valid = false := by simpa using hv
    refine (seqInv_s6 rfl).2 ⟨?_, bufSync_synced (bufPop_placed hp), validIsFull_iff.2 ⟨?_, ?_⟩⟩
    · exact (bufSync_withinLimits _).trans ((bufPop_withinLimits s).trans hl)
    · exact hv'.trans (bufPop_bufSync_notFull hp).symm
    · exact fun h => absurd h (by simp [hv])
  · obtain ⟨hr', hd⟩ := withinLimits_iff.1 hl
    refine (seqInv_s3 rfl).2 ⟨(bufPop_valid s).trans hv, withinLimits_iff.2 ⟨?_, ?_⟩⟩
    · simpa using permits_of_retriesLeft hr hr'
    · simpa using hd

theorem stepS5Ack_seqInv (hq : s.seq = .s5Ack) (h : s.seqInv = true) : s.stepS5Ack.seqInv = true := by
  obtain ⟨-, hl, hs, hf, hc⟩ := (seqInv_s5Ack hq).1 h
  exact (seqInv_s6 rfl).2 ⟨hl, hs, validIsFull_iff.2 ⟨hf.symm, fun _ => hc⟩⟩

theorem stepS6_seqInv (hq : s.seq = .s6) (h : s.seqInv = true) : s.stepS6.seqInv = true := by
  obtain ⟨-, hs, hv⟩ := (seqInv_s6 hq).1 h
  exact (seqInv_atRest (.inl rfl)).2 ⟨hs, hv⟩

/-- One step of PROCESS keeps the invariant. -/
theorem exec_process_inv (hi : s.Inv) (h : exec .process s = .next t) : t.Inv := by
  obtain ⟨hq, rfl⟩ | ⟨-, rfl⟩ | ⟨-, rfl⟩ | ⟨hq, rfl⟩ | ⟨hq, rfl⟩ | ⟨hq, rfl⟩ | ⟨hq, rfl⟩ | ⟨hq, rfl⟩ :=
    exec_process_cases h
  · exact ⟨hi.1, (seqInv_atRest (.inr rfl)).2 ((seqInv_atRest (.inl hq)).1 hi.2)⟩
  · exact ⟨stepS1_placed hi.1, seqInv_s2 rfl⟩
  · exact ⟨hi.1, stepS2_seqInv s⟩
  · exact ⟨bufSync_placed hi.1, stepS3_seqInv hq hi⟩
  · exact ⟨stepS4_placed hi.1, stepS4_seqInv hq hi⟩
  · exact ⟨stepS5_placed hi.1, stepS5_seqInv hq hi⟩
  · exact ⟨hi.1, stepS5Ack_seqInv hq hi.2⟩
  · exact ⟨hi.1, stepS6_seqInv hq hi.2⟩

/-- Every command keeps the invariant. -/
theorem exec_inv (i : Instr) (hi : s.Inv) (h : exec i s = .next t) : t.Inv := by
  by_cases hp : i = .process
  · subst hp
    exact exec_process_inv hi h
  · obtain ⟨v, e⟩ := exec_other hp s
    cases e.symm.trans h
    exact hi

/-- The reset pin leaves the buffer empty and `VALID` clear. -/
theorem assertReset_inv (s : State) : s.assertReset.Inv := by
  have hf : s.assertReset.bufFull = false := by
    rw [bufFull_false_iff, liveCount_unique (capacity_pos _) rfl]
    omega
  refine ⟨placed_iff.2 ⟨capacity_pos s, capacity_pos s, rfl, rfl⟩, (seqInv_atRest (.inl rfl)).2 ⟨rfl, ?_⟩⟩
  exact validIsFull_iff.2 ⟨hf.symm, fun h => Bool.noConfusion h⟩

end

/-! ### The statements of 10_state.md section 3 -/

/-- Settles O46: the environment's turn leaves the invariant alone, a reset establishes it, and every command keeps it. -/
theorem stepKeepsInvariant : Obligations.StepKeepsInvariant := by
  intro s t hi h
  have hi' : s.takeTurn.Inv := hi
  obtain ⟨-, ⟨-, rfl⟩ | ⟨-, -, -, rfl⟩ | ⟨-, -, w, -, he⟩ | ⟨-, -, -, he⟩⟩ := step_cases h
  · exact assertReset_inv s.takeTurn
  · exact hi'
  · exact exec_inv (decode w) hi' he
  · exact exec_process_inv hi' he

/-- No step of PROCESS writes the parameters. -/
theorem exec_process_params {s t : State} (h : exec .process s = .next t) : t.params = s.params := by
  obtain ⟨-, rfl⟩ | ⟨-, rfl⟩ | ⟨-, rfl⟩ | ⟨-, rfl⟩ | ⟨-, rfl⟩ | ⟨-, rfl⟩ | ⟨-, rfl⟩ | ⟨-, rfl⟩ :=
    exec_process_cases h
  · rfl
  · rw [(stepS1_spec s).1]
  · rfl
  · exact bufSync_params s
  · obtain ⟨b, rest, -, -, -, e⟩ | ⟨-, e⟩ := stepS4_cases s <;> rw [e]
    · exact fillWith_params _ b
    · rfl
  · obtain ⟨-, e⟩ | ⟨-, -, e⟩ | ⟨-, -, -, e⟩ | ⟨-, -, -, e⟩ := stepS5_cases s <;> rw [e]
    · rfl
    · rfl
    · exact (bufSync_params _).trans (bufPop_params s)
    · exact bufPop_params s
  · rfl
  · rfl

/-- No command writes the parameters. -/
theorem exec_params {s t : State} {i : Instr} (h : exec i s = .next t) : t.params = s.params := by
  by_cases hp : i = .process
  · subst hp
    exact exec_process_params h
  · obtain ⟨v, e⟩ := exec_other hp s
    cases e.symm.trans h
    rfl

/-- Settles O47: neither the environment's turn, nor a reset, nor a command writes the parameters. -/
theorem stepKeepsParameters : Obligations.StepKeepsParameters := by
  intro s t h
  obtain ⟨-, ⟨-, rfl⟩ | ⟨-, -, -, rfl⟩ | ⟨-, -, w, -, he⟩ | ⟨-, -, -, he⟩⟩ := step_cases h
  · rfl
  · rfl
  · exact exec_params (s := s.takeTurn) he
  · exact exec_params (s := s.takeTurn) he

/-- Settles O48: at rest PROCESS is accepted, which moves `SEQ` alone, and every other command only responds. -/
theorem bufferChangesOnlyInProcessOrReset : Obligations.BufferChangesOnlyInProcessOrReset := by
  intro s t h hr hq
  obtain ⟨-, ⟨hr', -⟩ | ⟨-, -, -, rfl⟩ | ⟨-, -, w, hc, he⟩ | ⟨-, hq', -⟩⟩ := step_cases h
  · exact absurd (hr.symm.trans hr') (by decide)
  · exact ⟨rfl, rfl, rfl, rfl, fun hn => absurd hq hn⟩
  · by_cases hp : decode w = .process
    · rw [hp, exec_process_idle (s := s.takeTurn) hq] at he
      cases he
      exact ⟨rfl, rfl, rfl, rfl, fun _ => by rw [hc, Option.map_some, hp]⟩
    · obtain ⟨v, e⟩ := exec_other hp s.takeTurn
      cases e.symm.trans he
      exact ⟨rfl, rfl, rfl, rfl, fun hn => absurd hq hn⟩
  · exact absurd hq hq'

/-- The phase view at rest, by `VALID` and the live count (10_state.md R37). -/
theorem phase_idle {s : State} (h : s.seq = .idle) : s.phase =
    if s.valid then some .ready else if s.liveCount = 0 then some .empty else some .filling := by
  simp only [State.phase, h]

/-- Settles O51: at rest `VALID` is full, so the three phases are the three ranges of the live count. -/
theorem phaseViewAtRest : Obligations.PhaseViewAtRest := by
  intro s hi hq
  obtain ⟨-, hv⟩ := (seqInv_atRest (.inl hq)).1 hi.2
  obtain ⟨hvf, -⟩ := validIsFull_iff.1 hv
  have hc : s.capacity - 1 = s.params.payloadLen + 2 := rfl
  rw [phase_idle hq, hc]
  cases h : s.valid with
  | true =>
    have hl := (bufFull_iff s).1 (hvf.symm.trans h)
    simp [hl]
  | false =>
    have hl := (bufFull_false_iff s).1 (hvf.symm.trans h)
    by_cases h0 : s.liveCount = 0
    · simp [h0]
    · simp [h0, hl, Nat.pos_of_ne_zero h0]

/-- Settles O10: the values of 10_state.md R39, and with equal cursors no byte is live. -/
theorem resetStateValues : Obligations.ResetStateValues :=
  ⟨rfl, rfl, rfl, rfl, rfl, rfl, liveCount_unique (capacity_pos _) rfl, phase_idle rfl⟩

/-! ### Storage outside the live region

The block reads the storage through the live bytes alone, and every update of two states with equal live bytes leaves equal
live bytes (10_state.md R26). A push needs the storage in canonical form, to read back what it wrote. -/

section

variable {s t : State}

/-- The second state is the first with another storage. -/
theorem State.SameButDeadStorage.exists_store (h : s.SameButDeadStorage t) :
    ∃ m, t = { s with store := m } ∧ s.live = ({ s with store := m } : State).live := by
  obtain ⟨e, l⟩ := h
  exact ⟨t.store, e, e ▸ l⟩

/-! ### What two such states agree on -/

theorem State.SameButDeadStorage.bufPeek_eq (h : s.SameButDeadStorage t) (k : Nat) : t.bufPeek k = s.bufPeek k := by
  rw [bufPeek_eq_live, bufPeek_eq_live, h.2]

theorem State.SameButDeadStorage.params_eq (h : s.SameButDeadStorage t) : t.params = s.params := by rw [h.1]

theorem State.SameButDeadStorage.liveCount_eq (h : s.SameButDeadStorage t) : t.liveCount = s.liveCount := by
  rw [h.1]
  rfl

theorem State.SameButDeadStorage.payloadByte_eq (h : s.SameButDeadStorage t) (i : Nat) :
    t.payloadByte i = s.payloadByte i := by
  simp only [State.payloadByte, h.bufPeek_eq]
  rw [h.1]

theorem State.SameButDeadStorage.longLoop_eq (h : s.SameButDeadStorage t) (i j fuel k : Nat) (r : Word) :
    t.longLoop i j fuel k r = s.longLoop i j fuel k r := by
  induction fuel generalizing k r with
  | zero => rfl
  | succ n ih => simp only [State.longLoop, h.payloadByte_eq, ih]

theorem State.SameButDeadStorage.chkOk_eq (h : s.SameButDeadStorage t) : t.chkOk = s.chkOk :=
  chkOk_congr (by rw [h.params_eq]) h.2.symm

theorem State.SameButDeadStorage.checksumByte_eq (h : s.SameButDeadStorage t) : t.checksumByte = s.checksumByte :=
  checksumByte_congr (by rw [h.params_eq]) h.2.symm

/-! ### The updates that leave the storage alone -/

theorem State.SameButDeadStorage.goto (h : s.SameButDeadStorage t) (q : Seq) :
    (s.goto q).SameButDeadStorage (t.goto q) := by
  obtain ⟨m, rfl, hl⟩ := h.exists_store
  exact ⟨rfl, hl⟩

theorem State.SameButDeadStorage.respond (h : s.SameButDeadStorage t) (v : Word) :
    (s.respond v).SameButDeadStorage (t.respond v) := by
  obtain ⟨m, rfl, hl⟩ := h.exists_store
  exact ⟨rfl, hl⟩

theorem State.SameButDeadStorage.takeTurn (h : s.SameButDeadStorage t) : s.takeTurn.SameButDeadStorage t.takeTurn := by
  obtain ⟨m, rfl, hl⟩ := h.exists_store
  exact ⟨rfl, hl⟩

/-- The reset pin empties the storage, so after it the two states are one. -/
theorem State.SameButDeadStorage.assertReset (h : s.SameButDeadStorage t) :
    s.assertReset.SameButDeadStorage t.assertReset := by
  obtain ⟨m, rfl, -⟩ := h.exists_store
  exact ⟨rfl, rfl⟩

/-! ### The buffer operations -/

theorem State.SameButDeadStorage.bufPop (h : s.SameButDeadStorage t) : s.bufPop.2.SameButDeadStorage t.bufPop.2 := by
  refine ⟨?_, by rw [bufPop_live, bufPop_live, h.2]⟩
  by_cases h0 : s.liveCount = 0
  · rw [bufPop_empty h0, bufPop_empty (h.liveCount_eq.trans h0)]
    exact h.1
  · obtain ⟨m, rfl, -⟩ := h.exists_store
    rw [bufPop_nonempty h0, bufPop_nonempty (s := { s with store := m }) h0]
    rfl

theorem State.SameButDeadStorage.bufPush (h : s.SameButDeadStorage t) (hs : Memory.wf s.store = true)
    (ht : Memory.wf t.store = true) (b : Byte) : (s.bufPush b).SameButDeadStorage (t.bufPush b) := by
  obtain ⟨m, rfl, hl⟩ := h.exists_store
  cases hf : s.bufFull
  · have hf' : ({ s with store := m } : State).bufFull = false := hf
    refine ⟨?_, by rw [bufPush_live hs hf, bufPush_live ht hf', hl]⟩
    rw [bufPush_room hf, bufPush_room hf']
    rfl
  · rwa [bufPush_full hf, bufPush_full (s := { s with store := m }) hf]

theorem State.SameButDeadStorage.syncLoop (h : s.SameButDeadStorage t) (fuel : Nat) :
    (s.syncLoop fuel).SameButDeadStorage (t.syncLoop fuel) := by
  induction fuel generalizing s t with
  | zero => exact h
  | succ n ih =>
    have he : t.bufEmpty = s.bufEmpty := by rw [h.1]; rfl
    simp only [State.syncLoop, he, h.bufPeek_eq, h.params_eq]
    split
    · exact ih h.bufPop
    · exact h

theorem State.SameButDeadStorage.bufSync (h : s.SameButDeadStorage t) : s.bufSync.SameButDeadStorage t.bufSync := by
  rw [State.bufSync, State.bufSync, h.liveCount_eq]
  exact h.syncLoop s.liveCount

/-! ### The steps of PROCESS -/

theorem State.SameButDeadStorage.stepS1 (h : s.SameButDeadStorage t) : s.stepS1.SameButDeadStorage t.stepS1 := by
  have hv : t.valid = s.valid := by rw [h.1]
  simp only [State.stepS1, hv]
  split
  · exact h.bufPop.goto .s2
  · exact h.goto .s2

theorem State.SameButDeadStorage.stepS4 (h : s.SameButDeadStorage t) (hs : Memory.wf s.store = true)
    (ht : Memory.wf t.store = true) : s.stepS4.SameButDeadStorage t.stepS4 := by
  obtain ⟨m, rfl, hl⟩ := h.exists_store
  obtain ⟨b, rest, hq, hf, hm, e⟩ | ⟨hn, e⟩ := stepS4_cases s
  · rw [e, stepS4_read (s := { s with store := m }) hq hf hm]
    have h' : ({ s with rxq := rest, reads := s.reads + 1 } : State).SameButDeadStorage
        { s with store := m, rxq := rest, reads := s.reads + 1 } := ⟨rfl, hl⟩
    exact (h'.bufPush hs ht b).bufSync
  · rw [e, stepS4_end (s := { s with store := m }) hn]
    exact h.goto .s5

theorem State.SameButDeadStorage.mismatch (h : s.SameButDeadStorage t) : s.mismatch.SameButDeadStorage t.mismatch := by
  have hr : t.retriesSpent = s.retriesSpent := by rw [h.1]; rfl
  have hn : t.retries = s.retries := by rw [h.1]
  simp only [State.mismatch, hr, hn]
  split
  · exact h.bufPop.bufSync.goto .s6
  · obtain ⟨m, e, hl⟩ := h.bufPop.exists_store
    rw [e]
    exact ⟨rfl, hl⟩

theorem State.SameButDeadStorage.stepS5 (h : s.SameButDeadStorage t) : s.stepS5.SameButDeadStorage t.stepS5 := by
  have hf : t.bufFull = s.bufFull := by rw [h.1]; rfl
  simp only [State.stepS5, hf, h.chkOk_eq]
  split
  · exact h.goto .s6
  · split
    · obtain ⟨m, rfl, hl⟩ := h.exists_store
      exact ⟨rfl, hl⟩
    · exact h.mismatch

theorem State.SameButDeadStorage.stepS5Ack (h : s.SameButDeadStorage t) :
    s.stepS5Ack.SameButDeadStorage t.stepS5Ack := by
  simp only [State.stepS5Ack, h.checksumByte_eq]
  obtain ⟨m, rfl, hl⟩ := h.exists_store
  exact ⟨rfl, hl⟩

/-! ### Commands and steps -/

/-- One step of PROCESS reads no byte outside the live region. -/
theorem exec_process_sameButDeadStorage (h : s.SameButDeadStorage t) (hs : Memory.wf s.store = true)
    (ht : Memory.wf t.store = true) :
    outcomesRelated State.SameButDeadStorage (exec .process s) (exec .process t) := by
  have hqt : t.seq = s.seq := by rw [h.1]
  cases hq : s.seq <;> rw [hq] at hqt
  case idle =>
    rw [exec_process_idle hq, exec_process_idle hqt]
    exact h.goto .s1
  case s1 =>
    rw [exec_process_s1 hq, exec_process_s1 hqt]
    exact h.stepS1
  case s2 =>
    obtain ⟨m, rfl, hl⟩ := h.exists_store
    rw [exec_process_s2 hq, exec_process_s2 hqt]
    exact ⟨rfl, hl⟩
  case s3 =>
    rw [exec_process_s3 hq, exec_process_s3 hqt]
    exact h.bufSync.goto .s4
  case s4 =>
    rw [exec_process_s4 hq, exec_process_s4 hqt]
    exact h.stepS4 hs ht
  case s5 =>
    rw [exec_process_s5 hq, exec_process_s5 hqt]
    exact h.stepS5
  case s5Ack =>
    rw [exec_process_s5Ack hq, exec_process_s5Ack hqt]
    exact h.stepS5Ack
  case s6 =>
    obtain ⟨m, rfl, hl⟩ := h.exists_store
    rw [exec_process_s6 hq, exec_process_s6 hqt]
    exact ⟨rfl, hl⟩

/-- No command reads a byte outside the live region. -/
theorem exec_sameButDeadStorage (h : s.SameButDeadStorage t) (hs : Memory.wf s.store = true)
    (ht : Memory.wf t.store = true) (i : Instr) :
    outcomesRelated State.SameButDeadStorage (exec i s) (exec i t) := by
  cases i with
  | process => exact exec_process_sameButDeadStorage h hs ht
  | getByte a =>
    simp only [exec, execGetByte, h.payloadByte_eq]
    exact h.respond _
  | getInt a b =>
    simp only [exec, execGetInt, h.payloadByte_eq, h.params_eq]
    exact h.respond _
  | getLong a b =>
    simp only [exec, execGetLong, h.longLoop_eq]
    exact h.respond _
  | count =>
    simp only [exec, execCount, h.liveCount_eq]
    exact h.respond _
  | isFull =>
    obtain ⟨m, rfl, -⟩ := h.exists_store
    exact h.respond _
  | isEmpty =>
    obtain ⟨m, rfl, -⟩ := h.exists_store
    exact h.respond _
  | reserved w => exact h.respond _

end

/-- Settles O59: both states select the same move, and the move reads and leaves the live bytes alone. -/
theorem deadStorageIsUnobservable : Obligations.DeadStorageIsUnobservable := by
  intro s t hs ht h
  obtain ⟨m, rfl, -⟩ := h.exists_store
  by_cases hl : s.params.Legal
  · cases hr : s.nextTurn.rst with
    | true =>
      rw [step_reset hl hr, step_reset (s := { s with store := m }) hl hr]
      exact h.takeTurn.assertReset
    | false =>
      by_cases hq : s.seq = .idle
      · cases hc : s.nextTurn.cmd with
        | none =>
          rw [step_idle hl hr hq hc, step_idle (s := { s with store := m }) hl hr hq hc]
          exact h.takeTurn
        | some w =>
          rw [step_command hl hr hq hc, step_command (s := { s with store := m }) hl hr hq hc]
          exact exec_sameButDeadStorage h.takeTurn hs ht (decode w)
      · cases hc : s.nextTurn.cmd with
        | none =>
          rw [step_busy hl hr hq hc, step_busy (s := { s with store := m }) hl hr hq hc]
          exact exec_process_sameButDeadStorage h.takeTurn hs ht
        | some w =>
          rw [step_commandWhileBusy hl hr hq hc, step_commandWhileBusy (s := { s with store := m }) hl hr hq hc]
          exact rfl
  · rw [step_noInstance hl, step_noInstance (s := { s with store := m }) hl]
    exact rfl

end Sys2Proof.Machine

namespace Sys2Proof.Machine

/-! ### The buffer operations leave the transport -/

section

variable (s : State) (b : Byte)

@[simp] theorem bufPop_rxq : s.bufPop.2.rxq = s.rxq := by rw [bufPop_frame]
@[simp] theorem bufPop_txlog : s.bufPop.2.txlog = s.txlog := by rw [bufPop_frame]
@[simp] theorem bufSync_rxq : s.bufSync.rxq = s.rxq := by rw [bufSync_frame]
@[simp] theorem bufSync_txlog : s.bufSync.txlog = s.txlog := by rw [bufSync_frame]
@[simp] theorem fillWith_rxq : (s.fillWith b).rxq = s.rxq := by rw [fillWith_frame]
@[simp] theorem fillWith_txlog : (s.fillWith b).txlog = s.txlog := by rw [fillWith_frame]

@[simp] theorem stepS1_rxq : s.stepS1.rxq = s.rxq := by rw [(stepS1_spec s).1]
@[simp] theorem stepS1_txlog : s.stepS1.txlog = s.txlog := by rw [(stepS1_spec s).1]

end

section

variable {s t : State}

/-! ### What each step of PROCESS reads and writes -/

theorem stepS4_rxq (s : State) : s.stepS4.rxq = s.rxq ∨ ∃ b, s.rxq = b :: s.stepS4.rxq := by
  obtain ⟨b, rest, hq, -, -, e⟩ | ⟨-, e⟩ := stepS4_cases s <;> rw [e]
  · exact .inr ⟨b, by rw [fillWith_rxq, hq]⟩
  · exact .inl rfl

@[simp] theorem stepS4_txlog (s : State) : s.stepS4.txlog = s.txlog := by
  obtain ⟨b, rest, -, -, -, e⟩ | ⟨-, e⟩ := stepS4_cases s <;> rw [e]
  · exact fillWith_txlog _ b
  · rfl

@[simp] theorem stepS5_rxq (s : State) : s.stepS5.rxq = s.rxq := by
  obtain ⟨-, e⟩ | ⟨-, -, e⟩ | ⟨-, -, -, e⟩ | ⟨-, -, -, e⟩ := stepS5_cases s <;> rw [e]
  · rfl
  · rfl
  · exact (bufSync_rxq _).trans (bufPop_rxq s)
  · exact bufPop_rxq s

/-- S5 writes nothing unless it acknowledges a match. -/
theorem stepS5_txlog (s : State) : s.stepS5.txlog = s.txlog ∨
    (s.stepS5.seq = .s5Ack ∧ s.stepS5.txlog = s.txlog ++ [s.params.ackMarker]) := by
  obtain ⟨-, e⟩ | ⟨-, -, e⟩ | ⟨-, -, -, e⟩ | ⟨-, -, -, e⟩ := stepS5_cases s <;> rw [e]
  · exact .inl rfl
  · exact .inr ⟨rfl, rfl⟩
  · exact .inl ((bufSync_txlog _).trans (bufPop_txlog s))
  · exact .inl (bufPop_txlog s)

/-- One step of PROCESS reads nothing, or at S4 the oldest readable byte (42_decode.md R82). -/
theorem exec_process_rxq (h : exec .process s = .next t) :
    t.rxq = s.rxq ∨ (s.seq = .s4 ∧ ∃ b, s.rxq = b :: t.rxq) := by
  obtain ⟨-, rfl⟩ | ⟨-, rfl⟩ | ⟨-, rfl⟩ | ⟨-, rfl⟩ | ⟨hq, rfl⟩ | ⟨-, rfl⟩ | ⟨-, rfl⟩ | ⟨-, rfl⟩ :=
    exec_process_cases h
  · exact .inl rfl
  · exact .inl (stepS1_rxq s)
  · exact .inl rfl
  · exact .inl (bufSync_rxq s)
  · exact (stepS4_rxq s).imp_right fun hb => ⟨hq, hb⟩
  · exact .inl (stepS5_rxq s)
  · exact .inl rfl
  · exact .inl rfl

/-- One step of PROCESS writes nothing, or one of the two bytes of S5 (42_decode.md R86). -/
theorem exec_process_txlog (h : exec .process s = .next t) :
    t.txlog = s.txlog ∨
    (s.seq = .s5 ∧ t.seq = .s5Ack ∧ t.txlog = s.txlog ++ [s.params.ackMarker]) ∨
    (s.seq = .s5Ack ∧ t.seq = .s6 ∧ t.txlog = s.txlog ++ [s.checksumByte]) := by
  obtain ⟨-, rfl⟩ | ⟨-, rfl⟩ | ⟨-, rfl⟩ | ⟨-, rfl⟩ | ⟨-, rfl⟩ | ⟨hq, rfl⟩ | ⟨hq, rfl⟩ | ⟨-, rfl⟩ :=
    exec_process_cases h
  · exact .inl rfl
  · exact .inl (stepS1_txlog s)
  · exact .inl rfl
  · exact .inl (bufSync_txlog s)
  · exact .inl (stepS4_txlog s)
  · exact (stepS5_txlog s).imp_right fun hw => .inl ⟨hq, hw⟩
  · exact .inr (.inr ⟨hq, rfl, rfl⟩)
  · exact .inl rfl

/-! ### What a step reads and writes -/

/-- A command that begins at rest moves `SEQ` or responds, and nothing else. -/
theorem exec_atRest_frame {i : Instr} (hq : s.seq = .idle) (h : exec i s = .next t) :
    t = { s with seq := t.seq, rsplog := t.rsplog } := by
  by_cases hp : i = .process
  · subst hp
    cases (exec_process_idle hq).symm.trans h
    rfl
  · obtain ⟨v, e⟩ := exec_other hp s
    cases e.symm.trans h
    rfl

/-- A step leaves the transport to the environment, or is a step of a PROCESS in execution (20_memory.md R50). -/
theorem step_transport_cases (h : step s = .next t) :
    (t.rxq = s.takeTurn.rxq ∧ t.txlog = s.txlog) ∨
    (s.nextTurn.rst = false ∧ exec .process s.takeTurn = .next t) := by
  obtain ⟨-, ⟨-, rfl⟩ | ⟨-, -, -, rfl⟩ | ⟨-, hq, w, -, he⟩ | ⟨hr, -, -, he⟩⟩ := step_cases h
  · exact .inl ⟨rfl, rfl⟩
  · exact .inl ⟨rfl, rfl⟩
  · rw [exec_atRest_frame (s := s.takeTurn) hq he]
    exact .inl ⟨rfl, rfl⟩
  · exact .inr ⟨hr, he⟩

end

/-! ### The statements of 20_memory.md sections 4 and 5 -/

/-- Settles O49: only a step of PROCESS takes bytes away, and of these only S4, which takes the oldest. -/
theorem bytesReadInArrivalOrder : Obligations.BytesReadInArrivalOrder := by
  intro s t h
  obtain ⟨hrx, -⟩ | ⟨hr, he⟩ := step_transport_cases h
  · exact .inl hrx
  · exact (exec_process_rxq he).imp_right fun ⟨hq, hb⟩ => ⟨hq, hr, hb⟩

/-- Settles O50: only a step of PROCESS writes, and the environment's turn before it leaves what it writes as it was. -/
theorem writesAppendAckThenChecksum : Obligations.WritesAppendAckThenChecksum := by
  intro s t h
  obtain ⟨-, htx⟩ | ⟨-, he⟩ := step_transport_cases h
  · exact .inl htx
  · exact exec_process_txlog (s := s.takeTurn) he

/-- Settles O8: the state that PROCESS goes on from is the one the environment's turn leaves. -/
theorem stepContinuesProcess : Obligations.StepContinuesProcess :=
  fun _ hl hq hr hc => step_busy hl hr hq hc

end Sys2Proof.Machine

namespace Sys2Proof

/-! Proofs of the encoding statements (30_encoding.md): what a word must carry to select each command, and from it the
round trip of decoder and encoder, the opcode map, the reserved words and the operand fields. -/

/-! ### The fields of a word -/

@[simp] theorem op_commandWord (op : BitVec 4) (i j : Byte) : Word.op (commandWord op i j) = op.toNat := by
  rw [Word.op, ← opField_toNat, opField_commandWord]

@[simp] theorem rsv_commandWord (op : BitVec 4) (i j : Byte) : Word.rsv (commandWord op i j) = 0 := by
  rw [Word.rsv, ← rsvField_toNat, rsvField_commandWord]
  rfl

theorem iField_eq_ofNat (w : Word) : iField w = BitVec.ofNat 8 (w.toNat / 256) :=
  BitVec.eq_of_toNat_eq ((iField_toNat w).trans (BitVec.toNat_ofNat _ _).symm)

theorem jField_eq_ofNat (w : Word) : jField w = BitVec.ofNat 8 w.toNat :=
  BitVec.eq_of_toNat_eq ((jField_toNat w).trans (BitVec.toNat_ofNat _ _).symm)

section

variable {w v : Word}

/-- `OP` and `RSV` are read from bits 31:16 alone (30_encoding.md R58). -/
theorem op_rsv_eq_of_upperHalf_eq (h : v.toNat / 65536 = w.toNat / 65536) :
    Word.op v = Word.op w ∧ Word.rsv v = Word.rsv w := by
  unfold Word.op Word.rsv
  omega

theorem upperHalf_eq_of_upperBytes_eq (h : v.toNat / 256 = w.toNat / 256) :
    v.toNat / 65536 = w.toNat / 65536 := by
  omega

theorem iField_eq_of_upperBytes_eq (h : v.toNat / 256 = w.toNat / 256) : iField v = iField w := by
  rw [iField_eq_ofNat, iField_eq_ofNat, h]

/-! ### What a word must carry to select a command -/

/-- The word selects the command: by R61 a command with its operand bytes, by R62 a reserved word, which is kept whole. -/
def Selects (w : Word) : Instr → Prop
  | .process => Word.rsv w = 0 ∧ Word.op w = 1
  | .getByte i => Word.rsv w = 0 ∧ Word.op w = 2 ∧ i = iField w
  | .getInt i j => Word.rsv w = 0 ∧ Word.op w = 3 ∧ i = iField w ∧ j = jField w
  | .getLong i j => Word.rsv w = 0 ∧ Word.op w = 4 ∧ i = iField w ∧ j = jField w
  | .count => Word.rsv w = 0 ∧ Word.op w = 5
  | .isFull => Word.rsv w = 0 ∧ Word.op w = 6
  | .isEmpty => Word.rsv w = 0 ∧ Word.op w = 7
  | .reserved u => (Word.rsv w ≠ 0 ∨ Word.op w = 0 ∨ 8 ≤ Word.op w) ∧ u = w

/-- The decoder answers the command the word selects: for each of its answers, no other command is selected. -/
theorem decode_eq_iff {i : Instr} : decode w = i ↔ Selects w i := by
  obtain ⟨hr, ho, hd⟩ | ⟨hr, ho, hd⟩ | ⟨hr, ho, hd⟩ | ⟨hr, ho, hd⟩ | ⟨hr, ho, hd⟩ | ⟨hr, ho, hd⟩ | ⟨hr, ho, hd⟩ |
    ⟨h, hd⟩ := decode_cases w <;> rw [hd]
  · cases i <;> simp [Selects, hr, ho]
  · cases i <;> simp [Selects, hr, ho, eq_comm]
  · cases i <;> simp [Selects, hr, ho, eq_comm]
  · cases i <;> simp [Selects, hr, ho, eq_comm]
  · cases i <;> simp [Selects, hr, ho]
  · cases i <;> simp [Selects, hr, ho]
  · cases i <;> simp [Selects, hr, ho]
  · cases i <;> simp [Selects, eq_comm] <;> omega

theorem decode_eq_reserved_iff :
    decode w = .reserved w ↔ Word.op w = 0 ∨ 8 ≤ Word.op w ∨ Word.rsv w ≠ 0 := by
  rw [decode_eq_iff, Selects]
  tauto

end

theorem isReserved_iff {w : Word} : Word.isReserved w = true ↔ Word.op w = 0 ∨ 8 ≤ Word.op w ∨ Word.rsv w ≠ 0 := by
  simp [Word.isReserved, or_assoc]

/-! ### The encoding selects its command -/

/-- The word of a well-formed command selects it: the fields of an assembled word are what it was assembled from. -/
theorem selects_encode {i : Instr} (h : i.wellFormed = true) : Selects (encode i) i := by
  cases i with
  | process | count | isFull | isEmpty => exact ⟨rsv_commandWord .., op_commandWord ..⟩
  | getByte i => exact ⟨rsv_commandWord .., op_commandWord .., (iField_commandWord ..).symm⟩
  | getInt i j | getLong i j =>
    exact ⟨rsv_commandWord .., op_commandWord .., (iField_commandWord ..).symm, (jField_commandWord ..).symm⟩
  | reserved w => exact decode_eq_iff.1 (decode_eq_reserved_iff.2 (isReserved_iff.1 h))

/-! ### What a reserved word does -/

/-- The arm of the reserved words (44_queries.md R109). -/
theorem exec_reserved (w : Word) (s : Machine.State) :
    Machine.exec (.reserved w) s = .next (s.respond 0#32) := rfl

/-! ### The statements of 30_encoding.md sections 2 and 4 -/

/-- Settles O2: the encoding of a well-formed command selects it. -/
theorem decodeEncodeAgree : Obligations.DecodeEncodeAgree :=
  fun _ h => decode_eq_iff.2 (selects_encode h)

/-- Settles O3: what selects each command is its `OP` with `RSV = 0`, and the operand fields are the bytes named. -/
theorem opcodeSelectsCommand : Obligations.OpcodeSelectsCommand := by
  intro w hr
  rw [← iField_eq_ofNat, ← jField_eq_ofNat]
  exact ⟨fun ho => decode_eq_iff.2 ⟨hr, ho⟩, fun ho => decode_eq_iff.2 ⟨hr, ho, rfl⟩,
    fun ho => decode_eq_iff.2 ⟨hr, ho, rfl, rfl⟩, fun ho => decode_eq_iff.2 ⟨hr, ho, rfl, rfl⟩,
    fun ho => decode_eq_iff.2 ⟨hr, ho⟩, fun ho => decode_eq_iff.2 ⟨hr, ho⟩, fun ho => decode_eq_iff.2 ⟨hr, ho⟩⟩

/-- Settles O4: the bits that select a reserved word are those of R62, and its arm only responds. -/
theorem reservedWordsExecuteAsNothing : Obligations.ReservedWordsExecuteAsNothing :=
  fun w => ⟨decode_eq_reserved_iff, fun hd s => by rw [hd, exec_reserved]; rfl⟩

/-- Settles O5: what selects a command names its operand fields, and reads no other bit below bit 16. -/
theorem operandFieldsUnsignedOrIgnored : Obligations.OperandFieldsUnsignedOrIgnored := by
  refine ⟨fun w i h => ?_, fun w i j h => ?_, fun w v i hv h => ?_, fun w v hv => ?_⟩
  · obtain ⟨-, -, rfl⟩ := decode_eq_iff.1 h
    exact iField_toNat w
  · have hij : i = iField w ∧ j = jField w :=
      h.elim (fun h => (decode_eq_iff.1 h).2.2) (fun h => (decode_eq_iff.1 h).2.2)
    obtain ⟨rfl, rfl⟩ := hij
    exact ⟨iField_toNat w, jField_toNat w⟩
  · obtain ⟨hr, ho, rfl⟩ := decode_eq_iff.1 h
    obtain ⟨hop, hrsv⟩ := op_rsv_eq_of_upperHalf_eq (upperHalf_eq_of_upperBytes_eq hv)
    exact decode_eq_iff.2 ⟨hrsv.trans hr, hop.trans ho, (iField_eq_of_upperBytes_eq hv).symm⟩
  · obtain ⟨hop, hrsv⟩ := op_rsv_eq_of_upperHalf_eq hv
    simp only [decode_eq_iff, Selects, hop, hrsv]
    exact ⟨id, id, id, id⟩

/-- Settles O1: each word is a literal, which the decoder evaluates. -/
theorem decodeSampleWords : Obligations.DecodeSampleWords := by
  unfold Obligations.DecodeSampleWords
  decide

end Sys2Proof

namespace Sys2Proof.Machine

section

variable {s t : State}

/-! ### Full, and room for a byte, in terms of `C` -/

/-- BUF_FULL as 40_buffer.md R73 writes it. -/
theorem bufFull_iff_capacity (s : State) : s.bufFull = true ↔ s.liveCount = s.capacity - 1 := beq_iff_eq

theorem bufFull_false_iff_capacity (s : State) : s.bufFull = false ↔ s.liveCount ≠ s.capacity - 1 :=
  beq_eq_false_iff_ne

/-- A full buffer holds `N + 2` bytes, so at least one (00_scope.md R10, 40_buffer.md R73). -/
theorem liveCount_ne_zero_of_full (h : s.bufFull = true) : s.liveCount ≠ 0 := by
  rw [(bufFull_iff s).1 h]
  omega

/-! ### BUF_PEEK, BUF_PUSH and BUF_POP as the storage sees them -/

theorem bufPeek_outside {k : Nat} (h : s.liveCount ≤ k) : s.bufPeek k = 0x00#8 := if_pos h

theorem bufPeek_inside {k : Nat} (h : k < s.liveCount) : s.bufPeek k = s.storeRead ((s.head + k) % s.capacity) :=
  if_neg (Nat.not_le.2 h)

/-- The byte at offset 0 is `STORE[HEAD]`, for a head cursor in range (10_state.md R26). -/
theorem bufPeek_zero (hh : s.head < s.capacity) (h : s.liveCount ≠ 0) : s.bufPeek 0 = s.storeRead s.head := by
  rw [bufPeek_inside (Nat.pos_of_ne_zero h), Nat.add_zero, Nat.mod_eq_of_lt hh]

/-- A push into a buffer with room writes `STORE[TAIL]` and no other index. -/
theorem bufPush_storeRead (hp : s.placed = true) (hf : s.bufFull = false) (b : Byte) (a : Nat) :
    (s.bufPush b).storeRead a = if a = s.tail then b else s.storeRead a := by
  obtain ⟨-, ht, hw, -⟩ := placed_iff.1 hp
  rw [bufPush_room hf, State.slot, Nat.mod_eq_of_lt ht]
  exact read_write (lo := 0) hw s.tail b a

theorem bufPush_tail (hf : s.bufFull = false) (b : Byte) : (s.bufPush b).tail = (s.tail + 1) % s.capacity := by
  rw [bufPush_room hf]

/-! ### One pass of BUF_SYNC -/

/-- A pass with a live head byte other than `MARKER` pops it (41_sync_checksum.md R76). -/
theorem syncLoop_pops (hp : s.placed = true) (h0 : s.liveCount ≠ 0) (hm : s.bufPeek 0 ≠ s.params.marker) (fuel : Nat) :
    s.syncLoop (fuel + 1) = s.bufPop.2.syncLoop fuel := by
  obtain ⟨hh, ht, -, -⟩ := placed_iff.1 hp
  have he : s.bufEmpty = false := by rwa [← Bool.not_eq_true, bufEmpty_iff hh ht]
  exact if_pos ⟨he, hm⟩

/-- A pass on an empty buffer, or one headed by `MARKER`, ends the loop (41_sync_checksum.md R76). -/
theorem syncLoop_stops (hp : s.placed = true) (h : s.liveCount = 0 ∨ s.bufPeek 0 = s.params.marker) (fuel : Nat) :
    s.syncLoop (fuel + 1) = s := by
  obtain ⟨hh, ht, -, -⟩ := placed_iff.1 hp
  refine if_neg fun ⟨he, hm⟩ => ?_
  rw [← Bool.not_eq_true, bufEmpty_iff hh ht] at he
  exact h.elim he hm

/-! ### When the sequencer pops and reads -/

/-- The `VALID` that S1 finds says the buffer is full (10_state.md R35). -/
theorem full_of_valid_s1 (hi : s.Inv) (hq : s.seq = .s1) (hv : s.valid = true) : s.bufFull = true := by
  obtain ⟨-, hvf⟩ := (seqInv_atRest (.inr hq)).1 hi.2
  exact (validIsFull_iff.1 hvf).1.symm.trans hv

/-- S5 moves the head only when a candidate was held (42_decode.md R87, R89). -/
theorem full_of_stepS5_head_ne (h : s.stepS5.head ≠ s.head) : s.bufFull = true := by
  obtain ⟨-, e⟩ | ⟨hf, -⟩ | ⟨hf, -⟩ | ⟨hf, -⟩ := stepS5_cases s
  · exact absurd (by rw [e]; rfl) h
  · exact hf
  · exact hf
  · exact hf

/-- Bytes leave the transport only into a buffer with room, and only if one is readable (42_decode.md R85). -/
theorem room_of_exec_process_rxq_ne (h : exec .process s = .next t) (hr : t.rxq ≠ s.rxq) :
    s.bufFull = false ∧ s.rxq ≠ [] := by
  obtain ⟨hq, b, hb⟩ := (exec_process_rxq h).resolve_left hr
  cases (exec_process_s4 hq).symm.trans h
  obtain ⟨_, _, -, hf, -⟩ | ⟨-, e⟩ := stepS4_cases s
  · exact ⟨hf, by rw [hb]; exact List.cons_ne_nil _ _⟩
  · exact absurd (by rw [e]; rfl) hr

end

/-! ### The statements of 40_buffer.md -/

/-- Settles O14: with the tail cursor in range, the index a push writes is `TAIL` itself. -/
theorem pushAppendsOrDrops : Obligations.PushAppendsOrDrops := by
  refine fun s b hp => ⟨fun h => bufPush_full ((bufFull_iff_capacity s).2 h) b, fun h => ?_⟩
  have hf : s.bufFull = false := (bufFull_false_iff_capacity s).2 h
  obtain ⟨-, -, hw, -⟩ := placed_iff.1 hp
  refine ⟨?_, ?_, fun a ha => ?_, bufPush_liveCount hf b, bufPush_live hw hf b⟩
  · rw [← bufPush_tail hf b]
    exact bufPush_frame s b
  · rw [bufPush_storeRead hp hf, if_pos rfl]
  · rw [bufPush_storeRead hp hf, if_neg ha]

/-- Settles O15: with the head cursor in range, the first live byte, which a pop removes, is `STORE[HEAD]`. -/
theorem popRemovesHead : Obligations.PopRemovesHead := by
  refine fun s hp => ⟨bufPop_empty, fun h => ?_⟩
  obtain ⟨hh, -⟩ := placed_iff.1 hp
  refine ⟨?_, ?_, ?_⟩
  · rw [bufPop_nonempty h, bufPeek_zero hh h]
  · rw [bufPop_liveCount, Nat.sub_add_cancel (Nat.pos_of_ne_zero h)]
  · rw [bufPop_live, live_eq_cons h, bufPop_nonempty h, List.tail_cons]

/-- Settles O16: the two branches of BUF_PEEK. -/
theorem peekReadsLiveRegion : Obligations.PeekReadsLiveRegion :=
  fun _ _ => ⟨bufPeek_outside, bufPeek_inside⟩

/-- Settles O17: S1 and S5 pop from a full buffer, S4 reads with room for a byte, and a pass of BUF_SYNC checks for a live
byte before it pops. -/
theorem sequencerNeverPushesFullNorPopsEmpty : Obligations.SequencerNeverPushesFullNorPopsEmpty := by
  intro s t hi he
  refine ⟨fun hq hv => ?_, fun hq hh => ?_, fun hr => ?_,
    ⟨hi.1, bufPop_placed hi.1, bufPush_placed hi.1⟩, fun u fuel hp => ⟨fun ⟨h0, hm⟩ => ?_, fun h => ?_⟩⟩
  · exact liveCount_ne_zero_of_full (full_of_valid_s1 hi hq hv)
  · cases (exec_process_s5 hq).symm.trans he
    exact (bufFull_iff_capacity s).1 (full_of_stepS5_head_ne hh)
  · obtain ⟨hf, hne⟩ := room_of_exec_process_rxq_ne he hr
    exact ⟨(bufFull_false_iff s).1 hf, hne⟩
  · refine ⟨syncLoop_pops hp h0 hm fuel, bufPop_placed hp, ?_⟩
    rw [bufPop_liveCount, Nat.sub_add_cancel (Nat.pos_of_ne_zero h0)]
  · exact syncLoop_stops hp h fuel

end Sys2Proof.Machine

namespace Sys2Proof.Machine

section

variable {s t : State}

/-! ### BUF_SYNC and the head cursor -/

/-- With one tail cursor, the head stands ahead by as many places as there are fewer live bytes (10_state.md R25). -/
theorem head_of_fewer_live {n : Nat} (hp : t.params = s.params) (ht : t.tail = s.tail) (hh : t.head < s.capacity)
    (hn : s.liveCount = n + t.liveCount) : t.head = (s.head + n) % s.capacity := by
  have hc : t.capacity = s.capacity := congrArg Params.capacity hp
  have e : t.head + t.liveCount ≡ s.head + n + t.liveCount [MOD s.capacity] := by
    calc (t.head + t.liveCount) % s.capacity
      _ = s.tail % s.capacity := by rw [← ht, ← hc, head_add_liveCount]
      _ = (s.head + n + t.liveCount) % s.capacity := by rw [Nat.add_assoc, ← hn, head_add_liveCount]
  rw [← Nat.mod_eq_of_lt hh]
  exact Nat.ModEq.add_right_cancel' _ e

@[simp] theorem bufPush_params (s : State) (b : Byte) : (s.bufPush b).params = s.params := by rw [bufPush_frame]

/-- BUF_SYNC leaves a synchronized buffer as it is (41_sync_checksum.md R76). -/
theorem bufSync_of_synced (hp : s.placed = true) (hs : s.synced = true) : s.bufSync = s := by
  obtain ⟨hh, ht, -, -⟩ := placed_iff.1 hp
  rw [State.bufSync]
  cases hn : s.liveCount with
  | zero => rfl
  | succ n =>
    simp only [State.synced, Bool.or_eq_true, bufEmpty_iff hh ht, beq_iff_eq] at hs
    exact syncLoop_stops hp hs n

/-- A byte pushed behind a marker, or a marker itself, keeps the buffer synchronized. -/
theorem bufPush_synced {b : Byte} (hp : s.placed = true) (hs : s.synced = true) (hf : s.bufFull = false)
    (h : s.liveCount ≠ 0 ∨ b = s.params.marker) : (s.bufPush b).synced = true := by
  obtain ⟨hh, ht, hw, -⟩ := placed_iff.1 hp
  obtain ⟨hh', ht', -, -⟩ := placed_iff.1 (bufPush_placed hp b)
  rw [synced_iff hh ht] at hs
  rw [synced_iff hh' ht', bufPush_live hw hf, bufPush_params]
  refine .inr ?_
  rcases hs with hs | hs
  · rw [hs, h.resolve_left (not_not.2 (live_eq_nil_iff.1 hs))]
    rfl
  · rw [List.head?_append, hs, Option.some_or]

end

/-! ### The XOR of a list of bytes -/

@[simp] theorem xorBytes_append (bs cs : List Byte) : xorBytes (bs ++ cs) = xorBytes bs ^^^ xorBytes cs := by
  rw [xorBytes, List.foldl_append]
  simpa [xorBytes] using List.foldl_assoc (op := fun x b : Byte => x ^^^ b) (l := cs) (a₁ := xorBytes bs) (a₂ := 0#8)

@[simp] theorem xorBytes_cons (b : Byte) (bs : List Byte) : xorBytes (b :: bs) = b ^^^ xorBytes bs := by
  rw [← List.singleton_append, xorBytes_append]
  simp [xorBytes]

@[simp] theorem xorBytes_nil : xorBytes [] = 0#8 := rfl

/-- Reading past the end of a list adds only zeros to the XOR (40_buffer.md R71). -/
theorem xorBytes_reads {bs : List Byte} {n : Nat} (h : bs.length ≤ n) :
    xorBytes ((List.range n).map fun i => (bs[i]?).getD 0#8) = xorBytes bs := by
  induction n generalizing bs with
  | zero =>
    rw [List.length_eq_zero_iff.1 (Nat.le_zero.1 h)]
    rfl
  | succ n ih =>
    rw [List.range_succ_eq_map]
    cases bs with
    | nil => simpa [Function.comp_def] using ih (bs := []) (Nat.zero_le n)
    | cons b bs => simpa [Function.comp_def] using ih (Nat.le_of_succ_le_succ h)

/-- Flipping the bits of a mask in one byte flips them in the XOR. -/
theorem xorBytes_flip {bs : List Byte} {i : Nat} (h : i < bs.length) (m : Byte) :
    xorBytes (bs.set i (bs[i] ^^^ m)) = xorBytes bs ^^^ m := by
  induction bs generalizing i with
  | nil => simp at h
  | cons b bs ih =>
    cases i with
    | zero => simp [BitVec.xor_assoc, BitVec.xor_comm m]
    | succ i => simp [ih (Nat.lt_of_succ_lt_succ h), BitVec.xor_assoc]

/-- Flipping a byte behind the first flips the same bits in the XOR of all but the first. -/
theorem xorBytes_tail_flip {bs : List Byte} {k : Nat} (h1 : 1 ≤ k) (h : k < bs.length) (m : Byte) :
    xorBytes (bs.set k (bs[k] ^^^ m)).tail = xorBytes bs.tail ^^^ m := by
  obtain ⟨i, rfl⟩ := Nat.exists_eq_add_of_le' h1
  cases bs with
  | nil => simp at h
  | cons b bs => exact xorBytes_flip (Nat.lt_of_succ_lt_succ h) m

/-! ### CHK_OK on the live bytes -/

/-- CHK_XOR over the offsets `1` to `N` (41_sync_checksum.md R78). -/
theorem chkXor_eq_xorBytes_peeks (s : State) :
    s.chkXor = xorBytes ((List.range s.params.payloadLen).map fun i => s.bufPeek (1 + i)) := by
  rw [chkXor_eq_xorBytes, State.payload, List.range'_eq_map_range, List.map_map]
  rfl

theorem chkOk_iff (s : State) : s.chkOk = true ↔ s.chkXor = s.bufPeek (s.params.payloadLen + 1) := beq_iff_eq

/-- A buffer holds at most the `N + 1` bytes of a payload and its checksum behind the first, so CHK_OK says that the XOR of
all of them is 0. -/
theorem chkOk_iff_xorBytes_tail (s : State) : s.chkOk = true ↔ xorBytes s.live.tail = 0#8 := by
  have hlen : s.live.tail.length ≤ s.params.payloadLen + 1 := by
    have h := liveCount_lt s
    rw [List.length_tail, live_length]
    simp only [State.capacity, Params.capacity] at h
    omega
  have hpeek : ∀ i, (s.live.tail[i]?).getD 0#8 = s.bufPeek (1 + i) := fun i => by
    rw [bufPeek_eq_live, List.getElem?_tail, Nat.add_comm]
  have hxor : xorBytes s.live.tail = s.chkXor ^^^ s.bufPeek (s.params.payloadLen + 1) := by
    rw [← xorBytes_reads hlen, List.range_succ, List.map_append, xorBytes_append, chkXor_eq_xorBytes_peeks]
    simp only [hpeek, List.map_singleton, xorBytes_cons, xorBytes_nil, BitVec.xor_zero, Nat.add_comm]
  rw [hxor, BitVec.xor_eq_zero_iff, chkOk_iff]

/-- A mask of one bit of a byte flips something. -/
theorem one_shiftLeft_ne_zero : ∀ bit < 8, (1#8 <<< bit : Byte) ≠ 0#8 := by decide

/-! ### The statements of 41_sync_checksum.md -/

/-- Settles O18: the live bytes are a suffix of those before, and the tail cursor does not move, so the head advances by the
number of bytes discarded. -/
theorem syncDiscardsUpToMarker : Obligations.SyncDiscardsUpToMarker := by
  intro s hp
  obtain ⟨hh, ht, -, -⟩ := placed_iff.1 hp
  obtain ⟨hh', ht', -, -⟩ := placed_iff.1 (bufSync_placed hp)
  obtain ⟨he, hlt, hl⟩ := bufSync_spec hh ht
  refine ⟨?_, hl, ?_⟩
  · have hn : s.liveCount = (s.live.takeWhile fun b => b != s.params.marker).length + s.bufSync.liveCount := by
      rw [← live_length, ← live_length, hl, syncList, ← List.length_append, List.takeWhile_append_dropWhile]
    rw [← head_of_fewer_live (bufSync_params s) (by rw [he]) hlt hn]
    exact he
  · have hs := bufSync_synced hp
    rwa [State.synced, Bool.or_eq_true, bufEmpty_iff hh' ht', beq_iff_eq, bufSync_params] at hs

/-- Settles O19: after the push the buffer holds the byte alone, or is synchronized. -/
theorem pushThenSyncKeepsHead : Obligations.PushThenSyncKeepsHead := by
  intro s b hp hs hf
  obtain ⟨-, -, hw, -⟩ := placed_iff.1 hp
  refine ⟨fun h0 hb => ?_, fun h => ?_⟩
  · obtain ⟨-, hl, -⟩ := syncDiscardsUpToMarker (s.bufPush b) (bufPush_placed hp b)
    rw [← live_eq_nil_iff, hl, bufPush_params, bufPush_live hw hf, live_eq_nil_iff.2 h0]
    exact List.dropWhile_cons_of_pos (by simpa using hb)
  · rw [bufSync_of_synced (bufPush_placed hp b) (bufPush_synced hp hs hf h)]
    exact ⟨bufPush_live hw hf b, by rw [bufPush_frame]⟩

/-- Settles O20: CHK_XOR is the XOR over those offsets, and CHK_OK compares it. -/
theorem checksumIsXorOfPayload : Obligations.ChecksumIsXorOfPayload := fun s =>
  ⟨chkXor_eq_xorBytes_peeks s, by rw [← chkXor_eq_xorBytes_peeks, chkOk_iff]⟩

/-- Settles O21: a flip behind the marker flips the same bits in the XOR that CHK_OK compares with 0. -/
theorem checksumDetectsOneBit : Obligations.ChecksumDetectsOneBit := by
  refine ⟨fun s p _ hl => ?_, fun s t k bit hf hs h1 hk hb _ hl => ?_, fun s t k l bit hf hs h1 hkl hl hb _ ht => ?_,
    fun s t b _ hl => ?_⟩
  · rw [chkOk_iff_xorBytes_tail, hl]
    simp [frameOf]
  · have hk' : k < s.live.length := by rw [live_length, (bufFull_iff s).1 hf]; omega
    rw [← Bool.not_eq_true, chkOk_iff_xorBytes_tail, hl, ← live_getElem hk', xorBytes_tail_flip h1,
      (chkOk_iff_xorBytes_tail s).1 hs, BitVec.zero_xor]
    exact one_shiftLeft_ne_zero bit hb
  · have hl' : l < s.live.length := by rw [live_length, (bufFull_iff s).1 hf]; omega
    have hk' : k < s.live.length := hkl.trans hl'
    have hsame : s.live[l] = (s.live.set k (s.live[k] ^^^ 1#8 <<< bit))[l]'(by simpa using hl') :=
      (List.getElem_set_ne hkl.ne _).symm
    rw [chkOk_iff_xorBytes_tail, ht, ← live_getElem hk', ← live_getElem hl', hsame,
      xorBytes_tail_flip (h1.trans hkl.le), xorBytes_tail_flip h1, (chkOk_iff_xorBytes_tail s).1 hs, BitVec.zero_xor,
      BitVec.xor_self]
  · rw [Bool.eq_iff_iff, chkOk_iff_xorBytes_tail, chkOk_iff_xorBytes_tail, hl]
    cases s.live <;> simp

end Sys2Proof.Machine

namespace Sys2Proof.Machine

section

variable {s t : State}

/-! ### With `VALID` clear every accessor reads 0 -/

theorem payloadByte_of_notValid (h : s.valid = false) (k : Nat) : s.payloadByte k = 0#8 := if_pos h

@[simp] theorem composeInt_zero (m : GetIntMode) : composeInt m 0#8 0#8 = 0#16 := by
  cases m <;> rfl

/-- The loop of GET_LONG accumulates zeros to zero. -/
theorem longLoop_of_notValid (h : s.valid = false) (i j fuel k : Nat) : s.longLoop i j fuel k 0#32 = 0#32 := by
  induction fuel generalizing k with
  | zero => rfl
  | succ n ih =>
    have hz : accumulate 0#32 (s.payloadByte k) = 0#32 := by rw [payloadByte_of_notValid h]; rfl
    simp only [State.longLoop, hz, ih, ite_self]

/-- 43_accessors.md R98: the three accessors answer 0 for all operands. -/
theorem accessors_answer_zero (h : s.valid = false) (i j : Byte) :
    exec (.getByte i) s = .next { s with rsplog := s.rsplog ++ [0#32] } ∧
    exec (.getInt i j) s = .next { s with rsplog := s.rsplog ++ [0#32] } ∧
    exec (.getLong i j) s = .next { s with rsplog := s.rsplog ++ [0#32] } := by
  simp only [exec, execGetByte, execGetInt, execGetLong, payloadByte_of_notValid h, composeInt_zero,
    longLoop_of_notValid h]
  exact ⟨rfl, rfl, rfl⟩

/-! ### The limits of S4 and S5 as 42_decode.md R82 writes them -/

theorem mayRead_iff : s.mayRead = true ↔
    s.params.drainLimit = .unbounded ∨ ∃ l, s.params.drainLimit = .atMost l ∧ s.reads < l := by
  cases h : s.params.drainLimit <;> simp [State.mayRead, h]

theorem mayRead_false_iff : s.mayRead = false ↔ ∃ l, s.params.drainLimit = .atMost l ∧ l ≤ s.reads := by
  cases h : s.params.drainLimit <;> simp [State.mayRead, h]

theorem retriesSpent_iff : s.retriesSpent = true ↔ ∃ r, s.params.retryLimit = .atMost r ∧ s.retries = r := by
  cases h : s.params.retryLimit <;> simp [State.retriesSpent, h, eq_comm (a := s.retries)]

theorem retriesSpent_false_iff : s.retriesSpent = false ↔
    s.params.retryLimit = .unbounded ∨ ∃ r, s.params.retryLimit = .atMost r ∧ s.retries ≠ r := by
  cases h : s.params.retryLimit <;> simp [State.retriesSpent, h]

/-! ### Each branch of S1, S5 and S6 -/

/-- S1 in the Ready phase (42_decode.md R83). -/
theorem stepS1_valid (hv : s.valid = true) : s.stepS1 = s.bufPop.2.goto .s2 := by simp [State.stepS1, hv]

/-- S1 outside the Ready phase (42_decode.md R83). -/
theorem stepS1_notValid (hv : s.valid = false) : s.stepS1 = s.goto .s2 := by simp [State.stepS1, hv]

/-- S6 of a command that acknowledged (30_encoding.md R60). -/
theorem stepS6_valid (hv : s.valid = true) : s.stepS6 = (s.goto .idle).respond 1#32 := by
  rw [State.stepS6, hv]
  rfl

/-- S6 of a command that did not (30_encoding.md R60). -/
theorem stepS6_notValid (hv : s.valid = false) : s.stepS6 = (s.goto .idle).respond 0#32 := by
  rw [State.stepS6, hv]
  rfl

/-- At rest with `VALID` clear the phase is Empty or Filling (10_state.md R37). -/
theorem phase_of_notValid (hq : s.seq = .idle) (hv : s.valid = false) :
    s.phase = some .empty ∨ s.phase = some .filling := by
  rw [phase_idle hq, hv]
  by_cases h0 : s.liveCount = 0
  · exact .inl (by simp [h0])
  · exact .inr (by simp [h0])

/-- S5 without a candidate (42_decode.md R88). -/
theorem stepS5_noCandidate (hf : s.bufFull = false) : s.stepS5 = s.goto .s6 := if_pos hf

/-- S5 of a match, its first write (42_decode.md R86). -/
theorem stepS5_match (hf : s.bufFull = true) (hc : s.chkOk = true) :
    s.stepS5 = (s.txWrite s.params.ackMarker).goto .s5Ack := by
  simp [State.stepS5, hf, hc]

/-- S5 of a mismatch at `RETRY_LIMIT` (42_decode.md R89). -/
theorem stepS5_lastMismatch (hf : s.bufFull = true) (hc : s.chkOk = false) (hr : s.retriesSpent = true) :
    s.stepS5 = s.bufPop.2.bufSync.goto .s6 := by
  simp [State.stepS5, State.mismatch, hf, hc, hr]

/-- S5 of a mismatch with retries left (42_decode.md R87). -/
theorem stepS5_retry (hf : s.bufFull = true) (hc : s.chkOk = false) (hr : s.retriesSpent = false) :
    s.stepS5 = { s.bufPop.2 with retries := s.retries + 1, seq := .s3 } := by
  simp [State.stepS5, State.mismatch, hf, hc, hr]

/-- In the fill and after it the invariant says that `VALID` is clear (42_decode.md R84). -/
theorem notValid_of_fill (hi : s.Inv) (hq : s.seq = .s4 ∨ s.seq = .s5) : s.valid = false :=
  ((seqInv_fill hq).1 hi.2).1

/-! ### The live bytes across a pop and BUF_SYNC -/

/-- BUF_SYNC on the live bytes, for cursors in range (41_sync_checksum.md R76). -/
theorem bufSync_live (hp : s.placed = true) : s.bufSync.live = syncList s.params.marker s.live := by
  obtain ⟨hh, ht, -, -⟩ := placed_iff.1 hp
  exact (bufSync_spec hh ht).2.2

theorem bufPop_bufSync_frame (s : State) : s.bufPop.2.bufSync = { s with head := s.bufPop.2.bufSync.head } := by
  rw [bufSync_frame, bufPop_frame]

end

/-! ### The statements of single steps (42_decode.md R83 to R89, R93) -/

/-- Settles O23: a valid buffer is full, so the pop of S1 meets a live byte. -/
theorem processPopsOneOldByte : Obligations.ProcessPopsOneOldByte := by
  intro s hi hq
  refine ⟨fun hv => ⟨s.stepS1, exec_process_s1 hq, ?_⟩, fun hv => ?_⟩
  · have h0 := liveCount_ne_zero_of_full (full_of_valid_s1 hi hq hv)
    have e := stepS1_valid hv
    refine ⟨by rw [e, bufPop_nonempty h0]; rfl, by rw [(stepS1_spec s).2, if_pos hv], ?_⟩
    rw [e, goto_liveCount, bufPop_liveCount, Nat.sub_add_cancel (Nat.pos_of_ne_zero h0)]
  · rw [exec_process_s1 hq, stepS1_notValid hv]
    rfl

/-- Settles O24: S2 clears `VALID`, and nothing else decides that the accessors read 0. -/
theorem processClearsValid : Obligations.ProcessClearsValid :=
  fun s hq => ⟨s.stepS2, exec_process_s2 hq, rfl, accessors_answer_zero (stepS2_valid s)⟩

/-- Settles O26: the branches of S4, the first by what the fill does with a byte. -/
theorem processFillsByteByByte : Obligations.ProcessFillsByteByByte := by
  intro s hi hq
  obtain ⟨hh, ht, hw, -⟩ := placed_iff.1 hi.1
  refine ⟨fun b rest hb hl hm => ⟨s.stepS4, exec_process_s4 hq, ?_⟩, fun h => ?_⟩
  · have hf : s.bufFull = false := (bufFull_false_iff s).2 hl
    obtain ⟨e, -, hlive⟩ := fillWith_spec (s := { s with rxq := rest }) hh ht hw hf b
    rw [stepS4_read hb hf (mayRead_iff.2 hm)]
    refine ⟨?_, hlive⟩
    rw [e]
    rfl
  · rw [exec_process_s4 hq, stepS4_end (by rwa [bufFull_iff_capacity, mayRead_false_iff])]
    rfl

/-- Settles O27: S5 finds no candidate, and S6 answers `VALID`, which the fill left clear. -/
theorem processEndsWithoutCandidate : Obligations.ProcessEndsWithoutCandidate := by
  intro s hi hq hl
  have hv := notValid_of_fill hi (.inr hq)
  refine ⟨?_, ({ s with seq := .s6 } : State).stepS6, exec_process_s6 rfl, ?_⟩
  · rw [exec_process_s5 hq, stepS5_noCandidate ((bufFull_false_iff s).2 hl)]
    rfl
  · rw [stepS6_notValid (s := { s with seq := .s6 }) hv]
    exact ⟨rfl, hv, phase_of_notValid rfl hv⟩

/-- Settles O28: the match branch of S5, its second write and S6, none of which moves a cursor. -/
theorem processAcknowledgesMatch : Obligations.ProcessAcknowledgesMatch := by
  intro s hq hl hc
  have ht := stepS5_match ((bufFull_iff_capacity s).2 hl) hc
  refine ⟨s.stepS5, s.stepS5.stepS5Ack, s.stepS5.stepS5Ack.stepS6, exec_process_s5 hq, ht, ?_⟩
  rw [ht]
  refine ⟨exec_process_s5Ack rfl, ?_, exec_process_s6 rfl, rfl, phase_idle rfl⟩
  simp only [State.stepS5Ack, State.txWrite, State.goto, List.append_assoc]
  rfl

/-- Settles O29: the retry branch of S5, whose pop meets the full buffer. -/
theorem processRetriesAfterMismatch : Obligations.ProcessRetriesAfterMismatch := by
  intro s _ hq hl hc hr
  have hf := (bufFull_iff_capacity s).2 hl
  have e := stepS5_retry hf hc (retriesSpent_false_iff.2 hr)
  refine ⟨s.stepS5, exec_process_s5 hq, ?_, ?_⟩
  · rw [e, bufPop_nonempty (liveCount_ne_zero_of_full hf)]
  · rw [e]
    exact bufPop_live s

/-- Settles O30: the last branch of S5, which leaves `VALID` clear for S6 to answer. -/
theorem processEndsAtRetryLimit : Obligations.ProcessEndsAtRetryLimit := by
  intro s r hi hq hl hc hr hn
  have e := stepS5_lastMismatch ((bufFull_iff_capacity s).2 hl) hc (retriesSpent_iff.2 ⟨r, hr, hn⟩)
  have hv : s.stepS5.valid = false := by
    rw [e, goto_valid, bufSync_valid, bufPop_valid, notValid_of_fill hi (.inr hq)]
  refine ⟨s.stepS5, exec_process_s5 hq, ?_, ?_, hv, ?_⟩
  · rw [e, bufPop_bufSync_frame]
    rfl
  · rw [e]
    refine (bufSync_live (bufPop_placed hi.1)).trans ?_
    rw [bufPop_live, bufPop_params]
    rfl
  · rw [exec_process_s6 (by rw [e]; rfl), stepS6_notValid hv]
    rfl

/-- Settles O11: what the environment's turn does is all that such a step does. -/
theorem idleBlockDoesNothing : Obligations.IdleBlockDoesNothing := fun _ hl hq hr hc => step_idle hl hr hq hc

end Sys2Proof.Machine

namespace Sys2Proof.Machine

section

variable {s t u : State}

/-! ### The turns ahead of a step -/

/-- No step of PROCESS takes a turn of its own, and only S6 responds and ends the command. -/
theorem exec_process_frame (h : exec .process s = .next t) :
    t.script = s.script ∧ t.clock = s.clock ∧ (s.seq ≠ .s6 → t.rsplog = s.rsplog ∧ t.seq ≠ .idle) := by
  obtain ⟨-, rfl⟩ | ⟨-, rfl⟩ | ⟨-, rfl⟩ | ⟨-, rfl⟩ | ⟨hq, rfl⟩ | ⟨-, rfl⟩ | ⟨-, rfl⟩ | ⟨hq, rfl⟩ :=
    exec_process_cases h
  · exact ⟨rfl, rfl, fun _ => ⟨rfl, nofun⟩⟩
  · rw [(stepS1_spec s).1]
    exact ⟨rfl, rfl, fun _ => ⟨rfl, nofun⟩⟩
  · exact ⟨rfl, rfl, fun _ => ⟨rfl, nofun⟩⟩
  · rw [State.stepS3, bufSync_frame]
    exact ⟨rfl, rfl, fun _ => ⟨rfl, nofun⟩⟩
  · obtain ⟨b, rest, -, -, -, e⟩ | ⟨-, e⟩ := stepS4_cases s <;> rw [e]
    · rw [fillWith_frame]
      exact ⟨rfl, rfl, fun _ => ⟨rfl, fun h => nomatch hq.symm.trans h⟩⟩
    · exact ⟨rfl, rfl, fun _ => ⟨rfl, nofun⟩⟩
  · obtain ⟨-, e⟩ | ⟨-, -, e⟩ | ⟨-, -, -, e⟩ | ⟨-, -, -, e⟩ := stepS5_cases s <;> rw [e]
    · exact ⟨rfl, rfl, fun _ => ⟨rfl, nofun⟩⟩
    · exact ⟨rfl, rfl, fun _ => ⟨rfl, nofun⟩⟩
    · rw [bufPop_bufSync_frame]
      exact ⟨rfl, rfl, fun _ => ⟨rfl, nofun⟩⟩
    · rw [bufPop_frame]
      exact ⟨rfl, rfl, fun _ => ⟨rfl, nofun⟩⟩
  · exact ⟨rfl, rfl, fun _ => ⟨rfl, nofun⟩⟩
  · exact ⟨rfl, rfl, fun hn => absurd hq hn⟩

/-- No command takes a turn of its own. -/
theorem exec_turns {i : Instr} (h : exec i s = .next t) : t.script = s.script ∧ t.clock = s.clock := by
  by_cases hp : i = .process
  · subst hp
    exact ⟨(exec_process_frame h).1, (exec_process_frame h).2.1⟩
  · obtain ⟨v, e⟩ := exec_other hp s
    cases e.symm.trans h
    exact ⟨rfl, rfl⟩

/-- A step brings the later turns one nearer. -/
theorem step_turnAt (h : step s = .next t) (k : Nat) : t.turnAt k = s.turnAt (k + 1) := by
  have key : t.script = s.takeTurn.script ∧ t.clock = s.takeTurn.clock := by
    obtain ⟨-, ⟨-, rfl⟩ | ⟨-, -, -, rfl⟩ | ⟨-, -, w, -, he⟩ | ⟨-, -, -, he⟩⟩ := step_cases h
    · exact ⟨rfl, rfl⟩
    · exact ⟨rfl, rfl⟩
    · exact exec_turns he
    · exact exec_turns he
  rw [turnAt_congr key.1 key.2, turnAt_takeTurn]

/-! ### Runs of several steps -/

theorem runFor_succ (h : step s = .next t) (n : Nat) : runFor (n + 1) s = runFor n t := by
  have hc : Sys2Proof.core.step s = .next t := h
  simp only [runFor, Host.Core.run, hc]
  rfl

/-- The first step of a run that is not stopped is not stopped. -/
theorem exists_step_of_runFor_succ {n : Nat} (h : runFor (n + 1) s = .next u) :
    ∃ t, step s = .next t ∧ runFor n t = .next u := by
  cases hs : step s with
  | next t => exact ⟨t, rfl, (runFor_succ hs n).symm.trans h⟩
  | fault r => cases r
  | refused r =>
    have hc : Sys2Proof.core.step s = .refused r := hs
    simp only [runFor, Host.Core.run, hc] at h
    cases h

/-- A run goes on from where its first part ends. -/
theorem runFor_add {m : Nat} (h : runFor m s = .next t) (n : Nat) : runFor (m + n) s = runFor n t := by
  induction m generalizing s with
  | zero =>
    cases h
    rw [Nat.zero_add]
  | succ m ih =>
    obtain ⟨u, hs, hu⟩ := exists_step_of_runFor_succ h
    rw [Nat.succ_add, runFor_succ hs, ih hu]

/-- A run keeps what every step keeps, and brings the later turns nearer by its length. -/
theorem runFor_keeps {n : Nat} (h : runFor n s = .next t) :
    t.params = s.params ∧ (s.Inv → t.Inv) ∧ ∀ k, t.turnAt k = s.turnAt (k + n) := by
  induction n generalizing s with
  | zero =>
    cases h
    exact ⟨rfl, id, fun _ => rfl⟩
  | succ n ih =>
    obtain ⟨u, hs, hu⟩ := exists_step_of_runFor_succ h
    obtain ⟨hp, hi, ht⟩ := ih hu
    refine ⟨hp.trans (stepKeepsParameters s u hs), fun h => hi (stepKeepsInvariant s u h hs), fun k => ?_⟩
    rw [ht, step_turnAt hs, Nat.add_assoc]

/-! ### A fill that never ends -/

/-- The fill of an empty buffer reads a byte other than `MARKER` and is where it was (42_decode.md R91 (b)). -/
theorem step_fill_discards {b : Byte} (hi : s.Inv) (hl : s.params.Legal) (hd : s.params.drainLimit = .unbounded)
    (hq : s.seq = .s4) (h0 : s.liveCount = 0) (hr : s.rxq = []) (hb : b ≠ s.params.marker)
    (ht : s.nextTurn = Turn.arrive [b]) :
    ∃ t, step s = .next t ∧ t.seq = .s4 ∧ t.liveCount = 0 ∧ t.rxq = [] ∧ t.rsplog = s.rsplog ∧ t.txlog = s.txlog := by
  have hrx : s.takeTurn.rxq = [b] := by rw [takeTurn_rxq, hr, ht]; rfl
  have hroom : s.takeTurn.liveCount < s.takeTurn.capacity - 1 := by
    rw [takeTurn_liveCount, h0]
    exact Nat.succ_pos _
  obtain ⟨t, he, hf, hlive⟩ := (processFillsByteByByte s.takeTurn hi hq).1 b [] hrx hroom (.inl hd)
  refine ⟨t, ?_, ?_⟩
  · rw [step_busy hl (by rw [ht]; rfl) (by rw [hq]; decide) (by rw [ht]; rfl), he]
  · rw [← live_eq_nil_iff, hlive, show s.takeTurn.live = [] from live_eq_nil_iff.2 h0, hf]
    exact ⟨hq, List.dropWhile_cons_of_pos (by simpa using hb), rfl, rfl, rfl⟩

end

/-- Settles O57: each turn gives the fill one more byte to discard. -/
theorem hangIsAdmitted : Obligations.HangIsAdmitted := by
  intro s n
  induction n generalizing s with
  | zero => exact fun _ _ _ hq h0 hr _ => ⟨s, rfl, hq, h0, hr, rfl, rfl⟩
  | succ n ih =>
    intro hi hl hd hq h0 hr ht
    obtain ⟨b, hb, hb0⟩ := ht 0 (Nat.succ_pos n)
    obtain ⟨t, hs, htq, ht0, htr, hrsp, htx⟩ :=
      step_fill_discards hi hl hd hq h0 hr hb ((turnAt_zero s).symm.trans hb0)
    have hp := stepKeepsParameters s t hs
    have hturns : ∀ k, k < n → ∃ b, b ≠ t.params.marker ∧ t.turnAt k = Turn.arrive [b] := fun k hk => by
      rw [hp, step_turnAt hs]
      exact ht (k + 1) (Nat.succ_lt_succ hk)
    obtain ⟨u, hu, huq, hu0, hur, hursp, hutx⟩ :=
      ih t (stepKeepsInvariant s t hi hs) (hp ▸ hl) (hp ▸ hd) htq ht0 htr hturns
    exact ⟨u, (runFor_succ hs n).trans hu, huq, hu0, hur, hursp.trans hrsp, hutx.trans htx⟩

section

variable {s t u : State} {arrived : List Byte}

/-! ### The two kinds of steps of one PROCESS -/

/-- The step that accepts PROCESS (42_decode.md R81). -/
theorem step_accept (h : s.StartsProcess) : step s = .next (s.takeTurn.goto .s1) := by
  obtain ⟨hl, hq, hr, hc⟩ := h
  obtain ⟨w, hw, hd⟩ := Option.map_eq_some_iff.1 hc
  rw [step_command hl hr hq hw, hd, exec_process_idle (s := s.takeTurn) hq]

/-- A step of a PROCESS in execution, without a reset. -/
theorem exec_of_step_busy (hq : t.seq ≠ .idle) (hr : t.nextTurn.rst = false) (h : step t = .next u) :
    t.params.Legal ∧ exec .process t.takeTurn = .next u := by
  obtain ⟨hl, ⟨hr', -⟩ | ⟨-, hq', -⟩ | ⟨-, hq', -⟩ | ⟨-, -, -, he⟩⟩ := step_cases h
  · exact absurd (hr.symm.trans hr') (by decide)
  · exact absurd hq' hq
  · exact absurd hq' hq
  · exact ⟨hl, he⟩

/-! ### What a PROCESS has written and answered -/

/-- The bytes a PROCESS at this step has written: the two of an acknowledgment, or none (42_decode.md R92). -/
def State.acknowledged (t : State) : List Byte :=
  match t.seq with
  | .s5Ack => [t.params.ackMarker]
  | .s6 | .idle => if t.valid then [t.params.ackMarker, t.checksumByte] else []
  | _ => []

/-- The responses a PROCESS at this step has given (30_encoding.md R60). -/
def State.answered (t : State) : List Word :=
  if t.seq = .idle then [bitWord t.valid] else []

theorem acknowledged_of_notValid (h : t.seq = .s6 ∨ t.seq = .idle) (hv : t.valid = false) : t.acknowledged = [] := by
  rcases h with h | h <;> simp [State.acknowledged, h, hv]

theorem acknowledged_of_valid (h : t.seq = .s6 ∨ t.seq = .idle) (hv : t.valid = true) :
    t.acknowledged = [t.params.ackMarker, t.checksumByte] := by
  rcases h with h | h <;> simp [State.acknowledged, h, hv]

/-- Before the acknowledgment nothing is written. -/
theorem acknowledged_early (h : t.seq ∈ [.s1, .s2, .s3, .s4, .s5]) : t.acknowledged = [] := by
  simp only [List.mem_cons, List.not_mem_nil, or_false] at h
  rcases h with h | h | h | h | h <;> simp [State.acknowledged, h]

/-- One step of PROCESS writes what its new position adds to the acknowledgment. -/
theorem exec_process_acknowledged (hi : s.Inv) (hq : s.seq ≠ .idle) (h : exec .process s = .next t) :
    ∃ w, t.txlog = s.txlog ++ w ∧ t.acknowledged = s.acknowledged ++ w := by
  have silent : t.txlog = s.txlog → t.acknowledged = s.acknowledged →
      ∃ w, t.txlog = s.txlog ++ w ∧ t.acknowledged = s.acknowledged ++ w :=
    fun htx ha => ⟨[], by rw [htx, List.append_nil], by rw [ha, List.append_nil]⟩
  obtain ⟨hq', -⟩ | ⟨hq', rfl⟩ | ⟨hq', rfl⟩ | ⟨hq', rfl⟩ | ⟨hq', rfl⟩ | ⟨hq', rfl⟩ | ⟨hq', rfl⟩ | ⟨hq', rfl⟩ :=
    exec_process_cases h
  · exact absurd hq' hq
  · exact silent (stepS1_txlog s) (acknowledged_early (by simp [hq'])).symm
  · exact silent rfl (acknowledged_early (by simp [hq'])).symm
  · exact silent (bufSync_txlog s) (acknowledged_early (by simp [hq'])).symm
  · refine silent (stepS4_txlog s) ((acknowledged_early ?_).trans (acknowledged_early ?_).symm)
    · obtain ⟨b, rest, -, -, -, e⟩ | ⟨-, e⟩ := stepS4_cases s <;> rw [e]
      · simp [hq']
      · simp
    · simp [hq']
  · have hs : s.acknowledged = [] := acknowledged_early (by simp [hq'])
    have hv := notValid_of_fill hi (.inr hq')
    obtain ⟨-, e⟩ | ⟨-, -, e⟩ | ⟨-, -, -, e⟩ | ⟨-, -, -, e⟩ := stepS5_cases s <;> rw [e] at silent ⊢
    · exact silent rfl ((acknowledged_of_notValid (t := s.goto .s6) (.inl rfl) hv).trans hs.symm)
    · exact ⟨[s.params.ackMarker], rfl, by rw [hs]; rfl⟩
    · exact silent ((bufSync_txlog _).trans (bufPop_txlog s))
        ((acknowledged_of_notValid (.inl rfl) (by simpa using hv)).trans hs.symm)
    · exact silent (bufPop_txlog s) hs.symm
  · exact ⟨[s.checksumByte], rfl, by simp only [State.acknowledged, hq']; rfl⟩
  · exact silent rfl (by simp only [State.acknowledged, hq']; rfl)

/-- One step of PROCESS responds at its end only, with `VALID`. -/
theorem exec_process_answered (h : exec .process s = .next t) : t.rsplog = s.rsplog ++ t.answered := by
  by_cases hq : s.seq = .s6
  · cases (exec_process_s6 hq).symm.trans h
    rfl
  · obtain ⟨hrsp, hne⟩ := (exec_process_frame h).2.2 hq
    rw [hrsp, State.answered, if_neg hne, List.append_nil]

/-- All a PROCESS in execution has delivered. -/
theorem ProcessRun.delivered (hi : s.Inv) (h : ProcessRun s arrived t) :
    t.Inv ∧ t.txlog = s.txlog ++ t.acknowledged ∧ t.rsplog = s.rsplog ++ t.answered := by
  induction h with
  | accept t hs he =>
    cases (step_accept hs).symm.trans he
    exact ⟨stepKeepsInvariant s _ hi he, (List.append_nil _).symm, (List.append_nil _).symm⟩
  | advance arrived t u _ hq hr he ih =>
    obtain ⟨hti, htx, hrsp⟩ := ih
    obtain ⟨-, hx⟩ := exec_of_step_busy hq hr he
    obtain ⟨w, hw, ha⟩ := exec_process_acknowledged (s := t.takeTurn) hti hq hx
    refine ⟨stepKeepsInvariant t u hti he, ?_, ?_⟩
    · rw [hw, ha, takeTurn_txlog, htx, List.append_assoc]
      rfl
    · have hn : t.answered = [] := if_neg hq
      rw [exec_process_answered hx, takeTurn_rsplog, hrsp, hn, List.append_nil]

end

/-- Settles O52: at the end `VALID` says what was written, and a valid candidate's checksum is its payload's XOR. -/
theorem processAnswersOnceAndWritesTwoOrNone : Obligations.ProcessAnswersOnceAndWritesTwoOrNone := by
  intro s t arrived hi h
  obtain ⟨hti, htx, hrsp⟩ := h.delivered hi
  refine ⟨fun hq => ?_, fun hq hv => ?_, fun hq hv => ?_⟩
  · rw [hrsp, State.answered, if_neg hq, List.append_nil]
  · obtain ⟨-, hvf⟩ := (seqInv_atRest (.inl hq)).1 hti.2
    have hc : t.chkXor = t.checksumByte := beq_iff_eq.1 ((validIsFull_iff.1 hvf).2 hv)
    rw [hrsp, htx, State.answered, if_pos hq, acknowledged_of_valid (.inr hq) hv, hv, ← hc, chkXor_eq_xorBytes]
    exact ⟨rfl, rfl⟩
  · rw [hrsp, htx, State.answered, if_pos hq, acknowledged_of_notValid (.inr hq) hv, hv]
    exact ⟨rfl, List.append_nil _⟩

end Sys2Proof.Machine

namespace Sys2Proof.Machine

section

variable {s t : State} {l : Nat}

/-! ### How many steps a PROCESS under a read limit can still take -/

/-- The bytes that false markers can still be popped from: those live and those `DRAIN_LIMIT = l` still admits. -/
def State.bytesAhead (l : Nat) (t : State) : Nat := t.liveCount + (l - t.reads)

/-- A bound of the steps to the end of the command: three for each pass from S3, of which each but the last pops a byte,
one for each read, and the end (42_decode.md R91 (a)). -/
def State.stepsLeft (l : Nat) (t : State) : Nat :=
  match t.seq with
  | .idle => 0
  | .s1 => 3 * ((if t.valid then t.liveCount - 1 else t.liveCount) + l + 1) + l + 4
  | .s2 => 3 * (t.liveCount + l + 1) + l + 3
  | .s3 => 3 * (t.bytesAhead l + 1) + (l - t.reads) + 2
  | .s4 => 3 * (t.bytesAhead l + 1) + (l - t.reads) + 1
  | .s5 => 3 * t.bytesAhead l + (l - t.reads) + 3
  | .s5Ack => 2
  | .s6 => 1

theorem stepS1_liveCount (s : State) :
    s.stepS1.liveCount = if s.valid then s.liveCount - 1 else s.liveCount := by
  rw [← live_length, (stepS1_spec s).2]
  split <;> simp

theorem stepsLeft_s4 (hq : t.seq = .s4) :
    t.stepsLeft l = 3 * (t.liveCount + (l - t.reads) + 1) + (l - t.reads) + 1 := by
  simp only [State.stepsLeft, hq, State.bytesAhead]

theorem stepsLeft_s5 (hq : t.seq = .s5) : t.stepsLeft l = 3 * (t.liveCount + (l - t.reads)) + (l - t.reads) + 3 := by
  simp only [State.stepsLeft, hq, State.bytesAhead]

/-- A read of the fill, as 42_decode.md R85 has it. -/
theorem stepS4_of_read {b : Byte} {rest : List Byte} (hi : s.Inv) (hq : s.seq = .s4) (hb : s.rxq = b :: rest)
    (hf : s.bufFull = false) (hm : s.mayRead = true) :
    s.stepS4 = { s with store := s.stepS4.store, head := s.stepS4.head, tail := (s.tail + 1) % s.capacity,
                        reads := s.reads + 1, rxq := rest } ∧
    s.stepS4.live = syncList s.params.marker (s.live ++ [b]) := by
  obtain ⟨t, he, h⟩ := (processFillsByteByByte s hi hq).1 b rest hb ((bufFull_false_iff s).1 hf) (mayRead_iff.1 hm)
  cases (exec_process_s4 hq).symm.trans he
  exact h

/-- A read of the fill uses up one that the limit admits, and adds at most one live byte. -/
theorem stepS4_stepsLeft (hi : s.Inv) (hd : s.params.drainLimit = .atMost l) (hq : s.seq = .s4) :
    s.stepS4.stepsLeft l < s.stepsLeft l := by
  rw [stepsLeft_s4 hq]
  obtain ⟨b, rest, hb, hf, hm, -⟩ | ⟨-, e⟩ := stepS4_cases s
  · obtain ⟨e, hlive⟩ := stepS4_of_read hi hq hb hf hm
    have hseq : s.stepS4.seq = .s4 := by rw [e, hq]
    have hreads : s.stepS4.reads = s.reads + 1 := by rw [e]
    have hle : s.stepS4.liveCount ≤ s.liveCount + 1 := by
      rw [← live_length, ← live_length, hlive]
      simpa using syncList_length_le s.params.marker (s.live ++ [b])
    have hlt : s.reads < l := by simpa [State.mayRead, hd] using hm
    rw [stepsLeft_s4 hseq, hreads]
    omega
  · rw [e, stepsLeft_s5 rfl, goto_liveCount, goto_reads]
    omega

/-- A mismatch pops a byte of the full buffer, and every other branch of S5 leads to the end. -/
theorem stepS5_stepsLeft (hq : s.seq = .s5) : s.stepS5.stepsLeft l < s.stepsLeft l := by
  rw [stepsLeft_s5 hq]
  obtain ⟨-, e⟩ | ⟨-, -, e⟩ | ⟨-, -, -, e⟩ | ⟨hf, -, -, e⟩ := stepS5_cases s <;> rw [e]
  · show 1 < _
    omega
  · show 2 < _
    omega
  · show 1 < _
    omega
  · have h0 := liveCount_ne_zero_of_full hf
    show 3 * (s.bufPop.2.liveCount + (l - s.bufPop.2.reads) + 1) + (l - s.bufPop.2.reads) + 2 < _
    rw [bufPop_liveCount, bufPop_reads]
    omega

/-- Every step of a PROCESS under a read limit lowers the bound of the steps left. -/
theorem exec_process_stepsLeft (hi : s.Inv) (hd : s.params.drainLimit = .atMost l) (hq : s.seq ≠ .idle)
    (h : exec .process s = .next t) : t.stepsLeft l < s.stepsLeft l := by
  obtain ⟨hq', -⟩ | ⟨hq', rfl⟩ | ⟨hq', rfl⟩ | ⟨hq', rfl⟩ | ⟨hq', rfl⟩ | ⟨hq', rfl⟩ | ⟨hq', rfl⟩ | ⟨hq', rfl⟩ :=
    exec_process_cases h
  · exact absurd hq' hq
  · simp only [State.stepsLeft, hq']
    show 3 * (s.stepS1.liveCount + l + 1) + l + 3 < _
    rw [stepS1_liveCount]
    omega
  · simp only [State.stepsLeft, hq']
    show 3 * (s.liveCount + (l - 0) + 1) + (l - 0) + 2 < _
    omega
  · have hle := bufSync_liveCount_le hi.1
    simp only [State.stepsLeft, hq']
    show 3 * (s.bufSync.liveCount + (l - s.bufSync.reads) + 1) + (l - s.bufSync.reads) + 1 <
      3 * (s.liveCount + (l - s.reads) + 1) + (l - s.reads) + 2
    rw [bufSync_reads]
    omega
  · exact stepS4_stepsLeft hi hd hq'
  · exact stepS5_stepsLeft hq'
  · simp only [State.stepsLeft, hq']
    exact Nat.lt_succ_self 1
  · simp only [State.stepsLeft, hq']
    exact Nat.one_pos

theorem exec_process_total (s : State) : ∃ t, exec .process s = .next t := by
  simp only [exec, execProcess]
  cases s.seq <;> exact ⟨_, rfl⟩

/-- A PROCESS in execution under a read limit ends within the steps left, whatever arrives. -/
theorem ProcessRun.ends {arrived : List Byte} (hl : t.params.Legal) (hd : t.params.drainLimit = .atMost l) (hi : t.Inv)
    (h : ProcessRun s arrived t) (hw : t.HostWaits 0 (t.stepsLeft l)) :
    ∃ n u arrived', n ≤ t.stepsLeft l ∧ runFor n t = .next u ∧ u.seq = .idle ∧ ProcessRun s arrived' u := by
  induction hm : t.stepsLeft l using Nat.strong_induction_on generalizing t arrived with
  | _ m ih =>
    subst hm
    by_cases hq : t.seq = .idle
    · exact ⟨0, t, arrived, Nat.zero_le _, rfl, hq, h⟩
    · obtain ⟨u, hu⟩ := exec_process_total t.takeTurn
      have hlt : u.stepsLeft l < t.stepsLeft l := exec_process_stepsLeft (s := t.takeTurn) hi hd hq hu
      obtain ⟨hr, hc⟩ := hw 0 (Nat.zero_lt_of_lt hlt) (Nat.le_refl 0)
      rw [turnAt_zero] at hr hc
      have hs : step t = .next u := (step_busy hl hr hq hc).trans hu
      have hp := stepKeepsParameters t u hs
      obtain ⟨n, v, arrived', hn, hv, hvq, hrun⟩ := ih _ hlt (hp ▸ hl) (hp ▸ hd) (stepKeepsInvariant t u hi hs)
        (h.advance _ _ _ hq hr hs)
        (fun k hk _ => by rw [step_turnAt hs]; exact hw (k + 1) (by omega) (Nat.zero_le _)) rfl
      exact ⟨n + 1, v, arrived', by omega, (runFor_succ hs n).trans hv, hvq, hrun⟩

end

/-- Settles O56: the bound counts the step that accepts PROCESS and the steps left after it. -/
theorem processEndsUnderDrainLimit : Obligations.ProcessEndsUnderDrainLimit := by
  intro s l passes bound hi hs hd hpass hbound hw
  have ha := step_accept hs
  have hb : (s.takeTurn.goto .s1).stepsLeft l + 1 = bound := by
    rw [hbound, hpass]
    rfl
  obtain ⟨n, t, arrived, hn, hrun, hq, hpr⟩ := ProcessRun.ends (t := s.takeTurn.goto .s1) hs.1 hd
    (stepKeepsInvariant s _ hi ha) (.accept _ hs ha)
    (fun k hk _ => by rw [step_turnAt ha]; exact hw (k + 1) (by omega) (Nat.le_add_left 1 k))
  obtain ⟨-, -, hrsp⟩ := hpr.delivered hi
  rw [State.answered, if_pos hq] at hrsp
  exact ⟨n + 1, t, bitWord t.valid, by omega, (runFor_succ ha n).trans hrun, hq, hrsp⟩

end Sys2Proof.Machine

namespace Sys2Proof.Machine

/-! ### BUF_SYNC byte by byte -/

/-- Synchronizing after each byte of a list is synchronizing after all of them. -/
theorem syncList_append (m : Byte) (bs cs : List Byte) : syncList m (syncList m bs ++ cs) = syncList m (bs ++ cs) := by
  induction bs with
  | nil => rfl
  | cons b bs ih =>
    by_cases hb : b = m
    · rw [syncList_of_head (bs := b :: bs) (.inr (by rw [List.head?_cons, hb]))]
    · have hdrop : ∀ cs, syncList m (b :: cs) = syncList m cs := fun cs =>
        List.dropWhile_cons_of_pos (by simpa using hb)
      rw [hdrop, ih, List.cons_append, hdrop]

/-- A synchronized list that gains bytes grows by all of them, unless it is empty. -/
theorem length_lt_of_syncList_append {m b : Byte} {bs cs : List Byte} {n : Nat} (h : bs = [] ∨ bs.head? = some m)
    (hn : 0 < n) (hl : (syncList m (bs ++ b :: cs)).length ≤ n) : bs.length < n := by
  rcases h with rfl | h
  · exact hn
  · rw [syncList_of_head (.inr (by rw [List.head?_append, h, Option.some_or])), List.length_append,
      List.length_cons] at hl
    omega

/-! ### Frames -/

theorem length_frameOf (m : Byte) (p : List Byte) : (frameOf m p).length = p.length + 2 := by simp [frameOf]

/-- The first bytes of a frame are none, or begin with the marker. -/
theorem syncList_take_frameOf (m : Byte) (p : List Byte) (k : Nat) :
    syncList m ((frameOf m p).take k) = (frameOf m p).take k := by
  cases k with
  | zero => rfl
  | succ k => exact syncList_of_head (.inr rfl)

/-- Bytes before a frame are dropped when none of them is the marker (42_decode.md R96). -/
theorem syncList_garbage_frameOf {m : Byte} {g : List Byte} (hg : ∀ b ∈ g, b ≠ m) (p : List Byte) :
    syncList m (g ++ frameOf m p) = frameOf m p := by
  rw [syncList, List.dropWhile_append_of_pos (fun b hb => by simpa using hg b hb)]
  exact syncList_of_head (.inr rfl)

/-- A frame's payload and its checksum, read at their buffer offsets (20_memory.md R44). -/
theorem bufPeek_frameOf {t : State} {m : Byte} {p : List Byte} (h : t.live = frameOf m p) :
    t.bufPeek (p.length + 1) = xorBytes p ∧ ∀ k b, p[k]? = some b → t.bufPeek (1 + k) = b := by
  refine ⟨?_, fun k b hk => ?_⟩
  · rw [bufPeek_eq_live, h]
    simp [frameOf]
  · have hlt : k < p.length := (List.getElem?_eq_some_iff.1 hk).1
    rw [bufPeek_eq_live, h, Nat.add_comm, frameOf, List.cons_append, List.getElem?_cons_succ,
      List.getElem?_append_left hlt, hk, Option.getD_some]

section

variable {s t u : State} {n : Nat} {bs : List Byte}

/-! ### The live bytes are the buffer's alone -/

@[simp] theorem goto_live (s : State) (q : Seq) : (s.goto q).live = s.live := rfl
@[simp] theorem takeTurn_live (s : State) : s.takeTurn.live = s.live := rfl
@[simp] theorem txWrite_live (s : State) (b : Byte) : (s.txWrite b).live = s.live := rfl
@[simp] theorem respond_live (s : State) (v : Word) : (s.respond v).live = s.live := rfl
@[simp] theorem stepS5Ack_live (s : State) : s.stepS5Ack.live = s.live := rfl

/-! ### What the second write of S5 leaves in each field -/

@[simp] theorem stepS5Ack_rxq (s : State) : s.stepS5Ack.rxq = s.rxq := rfl
@[simp] theorem stepS5Ack_txlog (s : State) : s.stepS5Ack.txlog = s.txlog ++ [s.checksumByte] := rfl
@[simp] theorem stepS5Ack_rsplog (s : State) : s.stepS5Ack.rsplog = s.rsplog := rfl

/-! ### The checksum byte depends on the buffer alone -/

@[simp] theorem goto_checksumByte (s : State) (q : Seq) : (s.goto q).checksumByte = s.checksumByte := rfl
@[simp] theorem takeTurn_checksumByte (s : State) : s.takeTurn.checksumByte = s.checksumByte := rfl
@[simp] theorem txWrite_checksumByte (s : State) (b : Byte) : (s.txWrite b).checksumByte = s.checksumByte := rfl

/-! ### What S1 to S3 leave in each field -/

/-- The live bytes that S1 leaves (42_decode.md R83). -/
def State.liveAfterS1 (s : State) : List Byte := if s.valid then s.live.tail else s.live

@[simp] theorem stepS1_live (s : State) : s.stepS1.live = s.liveAfterS1 := (stepS1_spec s).2

theorem liveAfterS1_valid {s : State} (hv : s.valid = true) : s.liveAfterS1 = s.live.tail := if_pos hv

theorem liveAfterS1_notValid {s : State} (hv : s.valid = false) : s.liveAfterS1 = s.live := by
  simp [State.liveAfterS1, hv]

@[simp] theorem stepS1_rsplog (s : State) : s.stepS1.rsplog = s.rsplog := by rw [(stepS1_spec s).1]

@[simp] theorem stepS3_rxq (s : State) : s.stepS3.rxq = s.rxq := bufSync_rxq s
@[simp] theorem stepS3_txlog (s : State) : s.stepS3.txlog = s.txlog := bufSync_txlog s
@[simp] theorem stepS3_reads (s : State) : s.stepS3.reads = s.reads := bufSync_reads s
@[simp] theorem stepS3_rsplog (s : State) : s.stepS3.rsplog = s.rsplog := by rw [State.stepS3, bufSync_frame]; rfl

@[simp] theorem stepS2_live (s : State) : s.stepS2.live = s.live := rfl

/-- S3 synchronizes the live bytes (42_decode.md R82). -/
theorem stepS3_live (hp : s.placed = true) : s.stepS3.live = syncList s.params.marker s.live := bufSync_live hp

/-- A payload byte of a validated frame (43_accessors.md R98). -/
theorem payloadByte_of_valid {s : State} {k : Nat} (hv : s.valid = true) (hk : k < s.params.payloadLen) :
    s.payloadByte k = s.bufPeek (1 + k) := by
  simp [State.payloadByte, hv, hk]

/-! ### A PROCESS during which nothing happens outside -/

theorem quietFor_mono {a b c : Nat} (h : s.QuietFor a b) (hc : c ≤ b) : s.QuietFor a c :=
  fun k hk ha => h k (hk.trans_le hc) ha

/-- A step of a PROCESS whose turn is quiet: the block moves, and no byte arrives. -/
theorem runFor_quiet (hl : s.params.Legal) (h : runFor n s = .next t) (hq : t.seq ≠ .idle)
    (ht : s.turnAt n = Turn.quiet) :
    t.takeTurn.rxq = t.rxq ∧ ∀ u, exec .process t.takeTurn = .next u → runFor (n + 1) s = .next u := by
  obtain ⟨hp, -, hturns⟩ := runFor_keeps h
  have hnext : t.nextTurn = Turn.quiet := by rw [← turnAt_zero, hturns, Nat.zero_add, ht]
  refine ⟨by rw [takeTurn_rxq, hnext]; exact List.append_nil _, fun u hu => ?_⟩
  rw [runFor_add h, runFor_succ ((step_busy (hp ▸ hl) (by rw [hnext]; rfl) hq (by rw [hnext]; rfl)).trans hu)]
  rfl

/-- After `n` steps a PROCESS begun at `s` is in its fill, at `t`, with these bytes live and these readable, which
`DRAIN_LIMIT` admits; nothing is written or answered. -/
structure FillsAfter (s : State) (n : Nat) (live rxq : List Byte) (t : State) : Prop where
  run : runFor n s = .next t
  seq_eq : t.seq = .s4
  live_eq : t.live = live
  rxq_eq : t.rxq = rxq
  txlog_eq : t.txlog = s.txlog
  rsplog_eq : t.rsplog = s.rsplog
  admits : permits s.params.drainLimit (t.reads + rxq.length) = true

/-- The command comes to its fill in four steps (42_decode.md R82, S1 to S3). -/
theorem fillsAfter_start (hi : s.Inv) (hs : s.StartsProcess) (hx : s.nextTurn.rx = [])
    (hd : permits s.params.drainLimit s.rxq.length = true) (hquiet : s.QuietFor 1 4) :
    ∃ t, FillsAfter s 4 (syncList s.params.marker s.liveAfterS1) s.rxq t := by
  have hl := hs.1
  have h1 : runFor 1 s = .next (s.takeTurn.goto .s1) := runFor_succ (step_accept hs) 0
  obtain ⟨hx1, h2⟩ := runFor_quiet hl h1 nofun (hquiet 1 (by decide) (by decide))
  have h2 := h2 _ (exec_process_s1 rfl)
  obtain ⟨hx2, h3⟩ := runFor_quiet hl h2 nofun (hquiet 2 (by decide) (by decide))
  have h3 := h3 _ (exec_process_s2 rfl)
  obtain ⟨hx3, h4⟩ := runFor_quiet hl h3 nofun (hquiet 3 (by decide) (by decide))
  have h4 := h4 _ (exec_process_s3 rfl)
  obtain ⟨hp, hi3, -⟩ := runFor_keeps h3
  refine ⟨_, h4, rfl, ?_, ?_, ?_, ?_, ?_⟩
  · rw [stepS3_live, takeTurn_params, hp, takeTurn_live, stepS2_live, takeTurn_live, stepS1_live]
    · rfl
    · exact (hi3 hi).1
  · rw [stepS3_rxq, hx3, stepS2_rxq, hx2, stepS1_rxq, hx1, goto_rxq, takeTurn_rxq, hx, List.append_nil]
  · simp
  · simp
  · simpa using hd

/-- A limit that admits more reads admits the next one. -/
theorem mayRead_of_permits {k : Nat} (h : permits s.params.drainLimit (s.reads + (k + 1)) = true) :
    s.mayRead = true := by
  cases hd : s.params.drainLimit with
  | unbounded => simp [State.mayRead, hd]
  | atMost l =>
    simp only [hd, permits, decide_eq_true_eq] at h
    simp only [State.mayRead, hd, decide_eq_true_eq]
    omega

/-- The fill takes a byte for which there is room. -/
theorem FillsAfter.read {b : Byte} {rest : List Byte} (hi : s.Inv) (hl : s.params.Legal)
    (h : FillsAfter s n bs (b :: rest) t) (ht : s.turnAt n = Turn.quiet) (hroom : bs.length < s.params.payloadLen + 2) :
    ∃ u, FillsAfter s (n + 1) (syncList s.params.marker (bs ++ [b])) rest u := by
  obtain ⟨hp, hinv, -⟩ := runFor_keeps h.run
  obtain ⟨hrx, hrun⟩ := runFor_quiet hl h.run (by rw [h.seq_eq]; nofun) ht
  have hq : t.takeTurn.seq = .s4 := h.seq_eq
  have hb : t.takeTurn.rxq = b :: rest := hrx.trans h.rxq_eq
  have hf : t.takeTurn.bufFull = false := by
    rw [bufFull_false_iff, takeTurn_liveCount, takeTurn_params, hp, ← live_length, h.live_eq]
    exact hroom
  have hm : t.takeTurn.mayRead = true := by
    refine mayRead_of_permits (k := rest.length) ?_
    rw [takeTurn_params, takeTurn_reads, hp]
    exact h.admits
  obtain ⟨e, hlive⟩ := stepS4_of_read (s := t.takeTurn) (hinv hi) hq hb hf hm
  refine ⟨_, hrun _ (exec_process_s4 hq), ?_, ?_, ?_, ?_, ?_, ?_⟩
  · rw [e, hq]
  · rw [hlive, takeTurn_params, hp, ← h.live_eq]
    rfl
  · rw [e]
  · rw [e, takeTurn_txlog, h.txlog_eq]
  · rw [e, takeTurn_rsplog, h.rsplog_eq]
  · rw [e]
    simpa [Nat.add_assoc, Nat.add_comm] using h.admits

/-- The fill takes all the bytes that are readable, if they fit behind what is kept. -/
theorem FillsAfter.readAll {rx : List Byte} (hi : s.Inv) (hl : s.params.Legal) (h : FillsAfter s n bs rx t)
    (hn : 1 ≤ n) (hquiet : s.QuietFor 1 (n + rx.length))
    (hroom : (syncList s.params.marker (bs ++ rx)).length ≤ s.params.payloadLen + 2) :
    ∃ u, FillsAfter s (n + rx.length) (syncList s.params.marker (bs ++ rx)) [] u := by
  have hbs : bs = [] ∨ bs.head? = some s.params.marker := by
    obtain ⟨hp, hinv, -⟩ := runFor_keeps h.run
    obtain ⟨hpl, hsq⟩ := hinv hi
    obtain ⟨hh, ht, -, -⟩ := placed_iff.1 hpl
    obtain ⟨-, -, hsync⟩ := (seqInv_fill (.inl h.seq_eq)).1 hsq
    rwa [synced_iff hh ht, h.live_eq, hp] at hsync
  induction rx generalizing n bs t with
  | nil =>
    rw [List.append_nil, syncList_of_head hbs]
    exact ⟨t, h⟩
  | cons b rest ih =>
    rw [List.length_cons] at hquiet
    obtain ⟨u, hu⟩ := h.read hi hl (hquiet n (by omega) hn)
      (length_lt_of_syncList_append hbs (Nat.succ_pos _) hroom)
    have hsplit : syncList s.params.marker (syncList s.params.marker (bs ++ [b]) ++ rest) =
        syncList s.params.marker (bs ++ b :: rest) := by
      rw [syncList_append, List.append_assoc, List.singleton_append]
    rw [← hsplit] at hroom ⊢
    have hlen : n + (b :: rest).length = n + 1 + rest.length := by rw [List.length_cons]; omega
    rw [hlen]
    exact ih hu (by omega) (by rwa [Nat.add_assoc, Nat.add_comm 1]) hroom (syncList_head _ _)

/-- Without a readable byte the fill ends. -/
theorem FillsAfter.fillEnds (hl : s.params.Legal) (h : FillsAfter s n bs [] t) (ht : s.turnAt n = Turn.quiet) :
    runFor (n + 1) s = .next (t.takeTurn.goto .s5) ∧ t.takeTurn.rxq = [] := by
  obtain ⟨hrx, hrun⟩ := runFor_quiet hl h.run (by rw [h.seq_eq]; nofun) ht
  have hq : t.takeTurn.seq = .s4 := h.seq_eq
  have hr : t.takeTurn.rxq = [] := hrx.trans h.rxq_eq
  refine ⟨hrun _ ?_, hr⟩
  rw [exec_process_s4 hq, stepS4_end (.inl hr)]

/-- The end without a full buffer: answer 0, nothing written (42_decode.md R88). -/
theorem FillsAfter.answersZero (hi : s.Inv) (hl : s.params.Legal) (h : FillsAfter s n bs [] t) (hn : 1 ≤ n)
    (hquiet : s.QuietFor 1 (n + 3)) (hlen : bs.length < s.params.payloadLen + 2) :
    ∃ u, runFor (n + 3) s = .next u ∧ u.seq = .idle ∧ u.valid = false ∧ u.rxq = [] ∧ u.live = bs ∧
      u.rsplog = s.rsplog ++ [0#32] ∧ u.txlog = s.txlog := by
  obtain ⟨hp, hinv, -⟩ := runFor_keeps h.run
  have hv : t.valid = false := notValid_of_fill (hinv hi) (.inl h.seq_eq)
  obtain ⟨h5, hr⟩ := h.fillEnds hl (hquiet n (by omega) hn)
  obtain ⟨hx5, h6⟩ := runFor_quiet hl h5 nofun (hquiet (n + 1) (by omega) (by omega))
  have hf : (t.takeTurn.goto .s5).takeTurn.bufFull = false := by
    rw [takeTurn_bufFull, goto_bufFull, takeTurn_bufFull, bufFull_false_iff, hp, ← live_length, h.live_eq]
    exact hlen
  have h6 := h6 _ ((exec_process_s5 rfl).trans (congrArg _ (stepS5_noCandidate hf)))
  obtain ⟨hx6, h7⟩ := runFor_quiet hl h6 nofun (hquiet (n + 2) (by omega) (by omega))
  have h7 := h7 _ ((exec_process_s6 rfl).trans (congrArg _ (stepS6_notValid (by simpa using hv))))
  refine ⟨_, h7, rfl, by simpa using hv, ?_, by simpa using h.live_eq, by simp [h.rsplog_eq], by simpa using h.txlog_eq⟩
  rw [respond_rxq, goto_rxq, hx6, goto_rxq, hx5, goto_rxq, hr]

/-- The end with a frame in the buffer: answer 1 and the acknowledgment (42_decode.md R86). -/
theorem FillsAfter.answersOne {p : List Byte} (hl : s.params.Legal)
    (h : FillsAfter s n (frameOf s.params.marker p) [] t) (hn : 1 ≤ n)
    (hquiet : s.QuietFor 1 (n + 4)) (hlen : p.length = s.params.payloadLen) :
    ∃ u, runFor (n + 4) s = .next u ∧ u.seq = .idle ∧ u.valid = true ∧ u.rxq = [] ∧
      u.live = frameOf s.params.marker p ∧ u.rsplog = s.rsplog ++ [1#32] ∧
      u.txlog = s.txlog ++ [s.params.ackMarker, xorBytes p] := by
  obtain ⟨hp, -⟩ := runFor_keeps h.run
  obtain ⟨h5, hr⟩ := h.fillEnds hl (hquiet n (by omega) hn)
  obtain ⟨hx5, hA⟩ := runFor_quiet hl h5 nofun (hquiet (n + 1) (by omega) (by omega))
  have hf : (t.takeTurn.goto .s5).takeTurn.bufFull = true := by
    rw [takeTurn_bufFull, goto_bufFull, takeTurn_bufFull, bufFull_iff, hp, ← live_length, h.live_eq, length_frameOf,
      hlen]
  have hc : (t.takeTurn.goto .s5).takeTurn.chkOk = true :=
    checksumDetectsOneBit.1 _ p (by simp [hp, hlen]) (by simp [h.live_eq, hp])
  have hA := hA _ ((exec_process_s5 rfl).trans (congrArg _ (stepS5_match hf hc)))
  obtain ⟨hxA, h6⟩ := runFor_quiet hl hA nofun (hquiet (n + 2) (by omega) (by omega))
  have h6 := h6 _ (exec_process_s5Ack rfl)
  obtain ⟨hx6, h7⟩ := runFor_quiet hl h6 nofun (hquiet (n + 3) (by omega) (by omega))
  have h7 := h7 _ ((exec_process_s6 rfl).trans (congrArg _ (stepS6_valid rfl)))
  have hk : t.checksumByte = xorBytes p := by
    rw [State.checksumByte, hp, ← hlen, (bufPeek_frameOf h.live_eq).1]
  refine ⟨_, h7, rfl, rfl, ?_, by simp [h.live_eq], by simp [h.rsplog_eq], ?_⟩
  · rw [respond_rxq, goto_rxq, hx6, stepS5Ack_rxq, hxA, goto_rxq, txWrite_rxq, hx5, goto_rxq, hr]
  · simp [h.txlog_eq, hp, hk]

/-- A PROCESS during which nothing arrives comes to the end of its fill: the bytes left by S1 and those readable,
synchronized, are live. -/
theorem fillsAfter_reads (hi : s.Inv) (hs : s.StartsProcess) (hx : s.nextTurn.rx = [])
    (hd : permits s.params.drainLimit s.rxq.length = true) (hquiet : s.QuietFor 1 (4 + s.rxq.length))
    (hroom : (syncList s.params.marker (s.liveAfterS1 ++ s.rxq)).length ≤ s.params.payloadLen + 2) :
    ∃ t, FillsAfter s (4 + s.rxq.length) (syncList s.params.marker (s.liveAfterS1 ++ s.rxq)) [] t := by
  obtain ⟨t, ht⟩ := fillsAfter_start hi hs hx hd (quietFor_mono hquiet (by omega))
  rw [← syncList_append] at hroom ⊢
  exact ht.readAll hi hs.1 (by decide) hquiet hroom

end

/-! ### The statements of whole commands -/

/-- Settles O53: the bytes kept of garbage and frame are the frame. -/
theorem frameRoundTripPastGarbage : Obligations.FrameRoundTripPastGarbage := by
  intro s g p hi hs hx h0 hlen hg hrx hd hquiet
  have hlive : s.liveAfterS1 = [] := by simp [State.liveAfterS1, live_eq_nil_iff.2 h0]
  have hlr : s.rxq.length = g.length + s.params.payloadLen + 2 := by
    rw [hrx, List.length_append, length_frameOf, hlen, Nat.add_assoc]
  have hkept : syncList s.params.marker (s.liveAfterS1 ++ s.rxq) =
      frameOf s.params.marker p := by
    rw [hlive, List.nil_append, hrx, syncList_garbage_frameOf hg]
  obtain ⟨t, ht⟩ := fillsAfter_reads hi hs hx (by rwa [hlr]) (quietFor_mono hquiet (by omega))
    (by rw [hkept, length_frameOf, hlen])
  rw [hkept] at ht
  obtain ⟨u, hu, hq, hv, hr, hl, hrsp, htx⟩ := ht.answersOne hs.1 (by omega) (quietFor_mono hquiet (by omega)) hlen
  have hn : 4 + s.rxq.length + 4 = g.length + s.params.payloadLen + 10 := by omega
  rw [hn] at hu
  refine ⟨u, hu, hq, hv, hr, hl, hrsp, htx, fun k b hb => ?_⟩
  have hk : k.toNat < u.params.payloadLen := by
    rw [(runFor_keeps hu).1, ← hlen]
    exact (List.getElem?_eq_some_iff.1 hb).1
  have hb' : u.payloadByte k.toNat = b := by rw [payloadByte_of_valid hv hk, (bufPeek_frameOf hl).2 k.toNat b hb]
  rw [← hb']
  rfl

/-- Settles O54: what the command keeps of the two parts is the longer part of the frame. -/
theorem splitDeliveryOneCommand : Obligations.SplitDeliveryOneCommand := by
  intro s p q m hi hs hx hv hlen hm hlive hrx hq hd hquiet
  subst hrx
  have hparts : (frameOf s.params.marker p).take m ++ s.rxq = (frameOf s.params.marker p).take (m + s.rxq.length) := by
    rw [List.take_add, ← List.prefix_iff_eq_take.1 hq]
  have hkept : syncList s.params.marker (s.liveAfterS1 ++ s.rxq) =
      (frameOf s.params.marker p).take (m + s.rxq.length) := by
    rw [liveAfterS1_notValid hv, hlive, hparts, syncList_take_frameOf]
  have hroom : ((frameOf s.params.marker p).take (m + s.rxq.length)).length ≤ s.params.payloadLen + 2 := by
    rw [List.length_take, length_frameOf, hlen]
    exact Nat.min_le_right _ _
  obtain ⟨t, ht⟩ := fillsAfter_reads hi hs hx hd (quietFor_mono hquiet (by omega)) (by rwa [hkept])
  rw [hkept] at ht
  refine ⟨fun hpart => ?_, fun hwhole => ?_⟩
  · have hn : 4 + s.rxq.length + 3 = s.rxq.length + 7 := by omega
    rw [← hn]
    refine ht.answersZero hi hs.1 (by omega) (quietFor_mono hquiet (by omega)) ?_
    rw [List.length_take]
    exact (Nat.min_le_left _ _).trans_lt hpart
  · have hn : 4 + s.rxq.length + 4 = s.rxq.length + 8 := by omega
    rw [List.take_of_length_le (by rw [length_frameOf, hlen, hwhole])] at ht
    rw [← hn]
    exact ht.answersOne hs.1 (by omega) (quietFor_mono hquiet (by omega)) hlen

/-- Settles O55: without a readable byte the fill keeps what S1 and S3 left, which is less than a full buffer. -/
theorem consumedFrameIsReleased : Obligations.ConsumedFrameIsReleased := by
  intro s hi hs hx hv hrx hquiet
  have hkept : syncList s.params.marker (s.liveAfterS1 ++ s.rxq) =
      syncList s.params.marker s.live.tail := by
    rw [liveAfterS1_valid hv, hrx, List.append_nil]
  have hroom : (syncList s.params.marker s.live.tail).length < s.params.payloadLen + 2 := by
    have hle := syncList_length_le s.params.marker s.live.tail
    have hlt := liveCount_lt s
    rw [List.length_tail, live_length] at hle
    simp only [State.capacity, Params.capacity] at hlt
    omega
  obtain ⟨t, ht⟩ := fillsAfter_reads hi hs hx (by rw [hrx]; exact permits_zero _)
    (quietFor_mono hquiet (by rw [hrx]; decide)) (by rw [hkept]; exact hroom.le)
  rw [hkept, hrx] at ht
  obtain ⟨u, hu, hq, hv', -, hl, hrsp, htx⟩ := ht.answersZero hi hs.1 (by decide) hquiet hroom
  exact ⟨u, hu, hq, hv', hl, hrsp, htx, accessors_answer_zero hv'⟩

end Sys2Proof.Machine

namespace Sys2Proof.Machine

/-! ### The block without limits

The two limits enter a PROCESS at two checks only, so every other step commutes with lifting them, and with putting the
block beside another transport (42_decode.md R89, R90). -/

/-- The block of `t` with both limits lifted, beside the readable bytes and the environment of `x`, and with the counters
of `x`, which nothing reads without limits. -/
def State.unlimitedBeside (t x : State) : State :=
  { t with params := unlimited t.params, retries := x.retries, reads := x.reads, rxq := x.rxq, script := x.script,
           clock := x.clock }

section

variable (t x : State)

@[simp] theorem unlimitedBeside_bufEmpty : (t.unlimitedBeside x).bufEmpty = t.bufEmpty := rfl
@[simp] theorem unlimitedBeside_bufPeek (k : Nat) : (t.unlimitedBeside x).bufPeek k = t.bufPeek k := rfl
@[simp] theorem unlimitedBeside_marker : (t.unlimitedBeside x).params.marker = t.params.marker := rfl
@[simp] theorem unlimitedBeside_valid : (t.unlimitedBeside x).valid = t.valid := rfl

/-! ### The buffer operations -/

@[simp] theorem unlimitedBeside_bufPop : (t.unlimitedBeside x).bufPop.2 = t.bufPop.2.unlimitedBeside x := by
  by_cases h : t.liveCount = 0
  · rw [bufPop_empty h, bufPop_empty (s := t.unlimitedBeside x) h]
  · rw [bufPop_nonempty h, bufPop_nonempty (s := t.unlimitedBeside x) h]
    rfl

theorem unlimitedBeside_bufPush (b : Byte) :
    (t.unlimitedBeside x).bufPush b = (t.bufPush b).unlimitedBeside x := by
  cases h : t.bufFull
  · rw [bufPush_room h, bufPush_room (s := t.unlimitedBeside x) h]
    rfl
  · rw [bufPush_full h, bufPush_full (s := t.unlimitedBeside x) h]

theorem unlimitedBeside_syncLoop (fuel : Nat) :
    (t.unlimitedBeside x).syncLoop fuel = (t.syncLoop fuel).unlimitedBeside x := by
  induction fuel generalizing t with
  | zero => rfl
  | succ n ih =>
    simp only [State.syncLoop, unlimitedBeside_bufEmpty, unlimitedBeside_bufPeek, unlimitedBeside_marker,
      unlimitedBeside_bufPop, ih]
    split <;> rfl

theorem unlimitedBeside_bufSync : (t.unlimitedBeside x).bufSync = t.bufSync.unlimitedBeside x :=
  unlimitedBeside_syncLoop t x t.liveCount

/-! ### The steps of PROCESS -/

theorem unlimitedBeside_stepS1 : (t.unlimitedBeside x).stepS1 = t.stepS1.unlimitedBeside x := by
  simp only [State.stepS1, unlimitedBeside_valid, unlimitedBeside_bufPop]
  split <;> rfl

theorem unlimitedBeside_stepS3 : (t.unlimitedBeside x).stepS3 = t.stepS3.unlimitedBeside x := by
  rw [State.stepS3, unlimitedBeside_bufSync]
  rfl

theorem unlimitedBeside_fillWith (b : Byte) : (t.unlimitedBeside x).fillWith b =
    (t.fillWith b).unlimitedBeside { x with reads := x.reads + 1 } := by
  have hb : ({ t.unlimitedBeside x with reads := x.reads + 1 } : State).bufPush b = _ :=
    unlimitedBeside_bufPush { t with reads := t.reads + 1 } { x with reads := x.reads + 1 } b
  exact (congrArg State.bufSync hb).trans (unlimitedBeside_bufSync _ _)

variable {t x}

/-- Where the fill takes a byte under a limit, it takes the same one without, readable there too. -/
theorem unlimitedBeside_stepS4_read {b : Byte} {rest rest' : List Byte} (ht : t.rxq = b :: rest)
    (hx : x.rxq = b :: rest') (hf : t.bufFull = false) (hm : t.mayRead = true) :
    (t.unlimitedBeside x).stepS4 = t.stepS4.unlimitedBeside { x with reads := x.reads + 1, rxq := rest' } := by
  rw [stepS4_read ht hf hm, stepS4_read (s := t.unlimitedBeside x) hx hf rfl]
  exact unlimitedBeside_fillWith { t with rxq := rest } { x with rxq := rest' } b

/-- Without limits the fill ends at a full buffer or without a readable byte. -/
theorem unlimitedBeside_stepS4_end (h : x.rxq = [] ∨ t.bufFull = true) :
    (t.unlimitedBeside x).stepS4 = (t.goto .s5).unlimitedBeside x :=
  stepS4_end (s := t.unlimitedBeside x) (h.imp_right .inl)

theorem unlimitedBeside_stepS5_noCandidate (hf : t.bufFull = false) :
    (t.unlimitedBeside x).stepS5 = (t.goto .s6).unlimitedBeside x :=
  stepS5_noCandidate (s := t.unlimitedBeside x) hf

theorem unlimitedBeside_stepS5_match (hf : t.bufFull = true) (hc : t.chkOk = true) :
    (t.unlimitedBeside x).stepS5 = ((t.txWrite t.params.ackMarker).goto .s5Ack).unlimitedBeside x :=
  stepS5_match (s := t.unlimitedBeside x) hf hc

/-- Without limits a mismatch always leads back to S3. -/
theorem unlimitedBeside_stepS5_mismatch (hf : t.bufFull = true) (hc : t.chkOk = false) :
    (t.unlimitedBeside x).stepS5 =
      (t.bufPop.2.goto .s3).unlimitedBeside { x with retries := x.retries + 1 } := by
  rw [stepS5_retry (s := t.unlimitedBeside x) hf hc rfl, unlimitedBeside_bufPop]
  rfl

end

/-! ### Runs of the unbounded procedure -/

/-- `s` with both limits lifted, the bytes `q` readable and nothing else to arrive, and PROCESS issued before `n` quiet
turns. -/
def State.unlimitedStart (s : State) (q : List Byte) (n : Nat) (later : List Turn) : State :=
  { s with params := unlimited s.params, rxq := q,
           script := ⟨false, [], s.nextTurn.cmd⟩ :: (List.replicate n Turn.quiet ++ later) }

/-- With `q` readable the unbounded PROCESS comes, in quiet turns enough, to the block of `t`, with `q'` still
readable. -/
def UnlimitedReaches (s : State) (q : List Byte) (t : State) (q' : List Byte) : Prop :=
  ∃ n, ∀ later, ∃ x : State, x.rxq = q' ∧ x.script = later ∧
    ProcessRun (s.unlimitedStart q n later) [] (t.unlimitedBeside x)

section

variable {s t u : State} {q q₁ q₂ : List Byte}

theorem unlimitedReaches_accept (h : s.StartsProcess) (q : List Byte) :
    UnlimitedReaches s q (s.takeTurn.goto .s1) q := by
  obtain ⟨hl, hq, -, hc⟩ := h
  refine ⟨0, fun later => ⟨(s.unlimitedStart q 0 later).takeTurn, List.append_nil q, rfl, ?_⟩⟩
  have hs : (s.unlimitedStart q 0 later).StartsProcess := ⟨hl, hq, rfl, hc⟩
  exact .accept _ hs (step_accept hs)

/-- One more quiet step of the unbounded procedure. -/
theorem UnlimitedReaches.step (h : UnlimitedReaches s q t q₁) (hl : t.params.Legal) (hq : t.seq ≠ .idle)
    (hstep : ∀ x : State, x.rxq = q₁ → ∃ y : State, y.rxq = q₂ ∧ y.script = x.script ∧
      exec .process (t.unlimitedBeside x) = .next (u.unlimitedBeside y)) :
    UnlimitedReaches s q u q₂ := by
  obtain ⟨n, hn⟩ := h
  refine ⟨n + 1, fun later => ?_⟩
  obtain ⟨x, hx, hscript, hrun⟩ := hn (Turn.quiet :: later)
  have hturn : x.nextTurn = Turn.quiet := by rw [State.nextTurn, hscript]; rfl
  obtain ⟨y, hy, hys, he⟩ := hstep x.takeTurn (by rw [takeTurn_rxq, hturn, hx]; exact List.append_nil q₁)
  have hr : (t.unlimitedBeside x).nextTurn.rst = false := congrArg Turn.rst hturn
  have hs : Machine.step (t.unlimitedBeside x) = .next (u.unlimitedBeside y) :=
    (step_busy (s := t.unlimitedBeside x) hl hr hq (congrArg Turn.cmd hturn)).trans he
  have harr : [] ++ (t.unlimitedBeside x).nextTurn.rx = [] := congrArg Turn.rx hturn
  refine ⟨y, hy, by rw [hys, takeTurn_script, hscript]; rfl, ?_⟩
  have hstart : s.unlimitedStart q (n + 1) later = s.unlimitedStart q n (Turn.quiet :: later) := by
    simp [State.unlimitedStart, List.replicate_succ']
  rw [hstart, ← harr]
  exact hrun.advance _ _ _ hq hr hs

/-! ### The unbounded procedure follows one under limits -/

/-- The command reads no more: its fill has ended without a full buffer, or it is at its end (42_decode.md R88). -/
def State.readsOver (t : State) : Prop := (t.seq = .s5 ∧ t.bufFull = false) ∨ t.seq = .s6 ∨ t.seq = .idle

theorem bufSync_goto (hp : s.placed = true) (q : Seq) : (s.goto q).bufSync = s.bufSync.goto q := by
  rw [(syncDiscardsUpToMarker s hp).1, (syncDiscardsUpToMarker (s.goto q) hp).1]
  rfl

/-- Where `RETRY_LIMIT` ends a command, the unbounded one retries without a byte to read, and ends with the same buffer
(42_decode.md R89). -/
theorem UnlimitedReaches.lastMismatch (h : UnlimitedReaches s q t []) (hl : t.params.Legal) (hp : t.placed = true)
    (hq : t.seq = .s5) (hf : t.bufFull = true) (hc : t.chkOk = false) :
    UnlimitedReaches s q (t.bufPop.2.bufSync.goto .s6) [] := by
  have hl3 : t.bufPop.2.params.Legal := by rwa [bufPop_params]
  have hl4 : t.bufPop.2.bufSync.params.Legal := by rwa [bufSync_params]
  have h3 : UnlimitedReaches s q (t.bufPop.2.goto .s3) [] :=
    h.step hl (by rw [hq]; nofun) fun x hx => ⟨{ x with retries := x.retries + 1 }, hx, rfl,
      (exec_process_s5 (s := t.unlimitedBeside x) hq).trans (congrArg _ (unlimitedBeside_stepS5_mismatch hf hc))⟩
  have h4 : UnlimitedReaches s q (t.bufPop.2.bufSync.goto .s4) [] :=
    h3.step hl3 nofun fun x hx => ⟨x, hx, rfl, by
      rw [exec_process_s3 rfl, unlimitedBeside_stepS3, State.stepS3, bufSync_goto (bufPop_placed hp)]
      rfl⟩
  have h5 : UnlimitedReaches s q (t.bufPop.2.bufSync.goto .s5) [] :=
    h4.step hl4 nofun fun x hx => ⟨x, hx, rfl, by
      rw [exec_process_s4 rfl, unlimitedBeside_stepS4_end (.inl hx)]
      rfl⟩
  exact h5.step hl4 nofun fun x hx => ⟨x, hx, rfl, by
    have hf' : (t.bufPop.2.bufSync.goto .s5).bufFull = false := bufPop_bufSync_notFull hp
    rw [exec_process_s5 rfl, unlimitedBeside_stepS5_noCandidate hf']
    rfl⟩

/-- From `t` to `u` a command reads the bytes `w`, and a run of the unbounded procedure to `t` that finds them readable
goes on to `u`. -/
def UnlimitedFollows (s t u : State) : Prop :=
  ∃ w, w ++ u.rxq = t.rxq ∧ ∀ q', (u.readsOver → q' = []) → (t.readsOver → w ++ q' = []) ∧
    ∀ q, UnlimitedReaches s q t (w ++ q') → UnlimitedReaches s q u q'

/-- A step that reads nothing, and of which the unbounded procedure takes one. -/
theorem unlimitedFollows_of_step (hl : t.params.Legal) (hq : t.seq ≠ .idle) (hrx : u.rxq = t.rxq)
    (hover : t.readsOver → u.readsOver)
    (hstep : ∀ x : State, (u.readsOver → x.rxq = []) → ∃ y : State, y.rxq = x.rxq ∧ y.script = x.script ∧
      exec .process (t.unlimitedBeside x) = .next (u.unlimitedBeside y)) :
    UnlimitedFollows s t u := by
  refine ⟨[], hrx, fun q' hq' => ⟨fun h => hq' (hover h), fun q h => h.step hl hq fun x hx => ?_⟩⟩
  obtain ⟨y, hy, hys, he⟩ := hstep x fun h => hx.trans (hq' h)
  exact ⟨y, hy.trans hx, hys, he⟩

theorem unlimitedFollows_s4 (hi : t.Inv) (hl : t.params.Legal) (hq : t.seq = .s4) :
    UnlimitedFollows s t t.stepS4 := by
  have hne : t.seq ≠ .idle := by rw [hq]; nofun
  have hover : ¬ t.readsOver := by simp [State.readsOver, hq]
  obtain ⟨b, rest, hb, hf, hm, -⟩ | ⟨hend, e⟩ := stepS4_cases t
  · have hrest : t.stepS4.rxq = rest := by rw [(stepS4_of_read hi hq hb hf hm).1]
    refine ⟨[b], by rw [hrest, hb]; rfl, fun q' _ => ⟨fun h => absurd h hover, fun q h => h.step hl hne fun x hx => ?_⟩⟩
    exact ⟨{ x with reads := x.reads + 1, rxq := q' }, rfl, rfl,
      (exec_process_s4 (s := t.unlimitedBeside x) hq).trans (congrArg _ (unlimitedBeside_stepS4_read hb hx hf hm))⟩
  · rw [e]
    refine unlimitedFollows_of_step hl hne rfl (fun h => absurd h hover) fun x hx => ⟨x, rfl, rfl, ?_⟩
    have hstop : x.rxq = [] ∨ t.bufFull = true := by
      cases hf : t.bufFull
      · exact .inl (hx (.inl ⟨rfl, hf⟩))
      · exact .inr rfl
    rw [exec_process_s4 (s := t.unlimitedBeside x) hq, unlimitedBeside_stepS4_end hstop]

theorem unlimitedFollows_s5 (hi : t.Inv) (hl : t.params.Legal) (hq : t.seq = .s5) :
    UnlimitedFollows s t t.stepS5 := by
  have hne : t.seq ≠ .idle := by rw [hq]; nofun
  have hover : t.bufFull = true → ¬ t.readsOver := fun hf => by simp [State.readsOver, hq, hf]
  obtain ⟨hf, e⟩ | ⟨hf, hc, e⟩ | ⟨hf, hc, -, e⟩ | ⟨hf, hc, -, e⟩ := stepS5_cases t <;> rw [e]
  · refine unlimitedFollows_of_step hl hne rfl (fun _ => .inr (.inl rfl)) fun x _ => ⟨x, rfl, rfl, ?_⟩
    rw [exec_process_s5 (s := t.unlimitedBeside x) hq, unlimitedBeside_stepS5_noCandidate hf]
  · refine unlimitedFollows_of_step hl hne rfl (fun h => absurd h (hover hf)) fun x _ => ⟨x, rfl, rfl, ?_⟩
    rw [exec_process_s5 (s := t.unlimitedBeside x) hq, unlimitedBeside_stepS5_match hf hc]
  · refine ⟨[], (bufSync_rxq _).trans (bufPop_rxq t), fun q' hq' => ?_⟩
    cases hq' (.inr (.inl rfl))
    exact ⟨fun _ => rfl, fun q h => h.lastMismatch hl hi.1 hq hf hc⟩
  · refine unlimitedFollows_of_step hl hne (bufPop_rxq t) (fun h => absurd h (hover hf)) fun x _ =>
      ⟨{ x with retries := x.retries + 1 }, rfl, rfl, ?_⟩
    rw [exec_process_s5 (s := t.unlimitedBeside x) hq, unlimitedBeside_stepS5_mismatch hf hc]
    rfl

/-- The unbounded procedure follows every step of a command under limits: in one step or, at `RETRY_LIMIT`, in four. -/
theorem unlimitedFollows_exec (hi : t.Inv) (hl : t.params.Legal) (hq : t.seq ≠ .idle)
    (he : exec .process t = .next u) : UnlimitedFollows s t u := by
  obtain ⟨hq', -⟩ | ⟨hq', rfl⟩ | ⟨hq', rfl⟩ | ⟨hq', rfl⟩ | ⟨hq', rfl⟩ | ⟨hq', rfl⟩ | ⟨hq', rfl⟩ | ⟨hq', rfl⟩ :=
    exec_process_cases he
  · exact absurd hq' hq
  · refine unlimitedFollows_of_step hl hq (stepS1_rxq t) (by simp [State.readsOver, hq']) fun x _ => ⟨x, rfl, rfl, ?_⟩
    rw [exec_process_s1 (s := t.unlimitedBeside x) hq', unlimitedBeside_stepS1]
  · exact unlimitedFollows_of_step hl hq rfl (by simp [State.readsOver, hq']) fun x _ =>
      ⟨{ x with retries := 0, reads := 0 }, rfl, rfl, exec_process_s2 hq'⟩
  · refine unlimitedFollows_of_step hl hq (stepS3_rxq t) (by simp [State.readsOver, hq']) fun x _ => ⟨x, rfl, rfl, ?_⟩
    rw [exec_process_s3 (s := t.unlimitedBeside x) hq', unlimitedBeside_stepS3]
  · exact unlimitedFollows_s4 hi hl hq'
  · exact unlimitedFollows_s5 hi hl hq'
  · exact unlimitedFollows_of_step hl hq rfl (by simp [State.readsOver, hq']) fun x _ =>
      ⟨x, rfl, rfl, exec_process_s5Ack hq'⟩
  · exact unlimitedFollows_of_step hl hq rfl (fun _ => .inr (.inr rfl)) fun x _ => ⟨x, rfl, rfl, exec_process_s6 hq'⟩

/-- All a PROCESS under limits does is a run of the unbounded one on the bytes it reads. -/
theorem ProcessRun.unlimited {arrived : List Byte} (hi : s.Inv) (h : ProcessRun s arrived t) :
    ∃ r, r ++ t.rxq = s.rxq ++ arrived ∧
      ∀ q', (t.readsOver → q' = []) → UnlimitedReaches s (r ++ q') t q' := by
  induction h with
  | accept t hs he =>
    cases (step_accept hs).symm.trans he
    exact ⟨[], rfl, fun q' _ => unlimitedReaches_accept hs q'⟩
  | advance arrived t u hrun hq hr he ih =>
    obtain ⟨r, hrx, hreach⟩ := ih
    obtain ⟨hl, hx⟩ := exec_of_step_busy hq hr he
    obtain ⟨w, hw, hstep⟩ := unlimitedFollows_exec (s := s) (t := t.takeTurn) (hrun.delivered hi).1 hl hq hx
    refine ⟨r ++ w, ?_, fun q' hq' => ?_⟩
    · rw [List.append_assoc, hw, takeTurn_rxq, ← List.append_assoc, hrx, List.append_assoc]
    · obtain ⟨hover, hto⟩ := hstep q' hq'
      rw [List.append_assoc]
      exact hto _ (hreach (w ++ q') hover)

end

/-- Settles O58: the unbounded procedure on the bytes the command read, which follows it to its end. -/
theorem limitsAddNoEndState : Obligations.LimitsAddNoEndState := by
  intro s t arrived hi h hq
  obtain ⟨r, hr, hreach⟩ := h.unlimited hi
  obtain ⟨n, hn⟩ := hreach [] fun _ => rfl
  obtain ⟨x, hx, -, hrun⟩ := hn []
  rw [List.append_nil] at hrun
  exact ⟨r, _, t.unlimitedBeside x, hr, hrun, hq, hx, rfl, rfl, rfl, rfl, rfl, rfl⟩

end Sys2Proof.Machine

namespace Sys2Proof.Machine

/-! ### The accessors over their operand bytes (43_accessors.md R101, R102) -/

theorem exec_getByte (i : Byte) (s : State) :
    exec (.getByte i) s = .next (s.respond ((s.payloadByte i.toNat).setWidth 32)) := rfl

theorem exec_getInt (i j : Byte) (s : State) : exec (.getInt i j) s = .next (s.respond
    ((composeInt s.params.getIntMode (s.payloadByte i.toNat) (s.payloadByte j.toNat)).setWidth 32)) := rfl

/-! ### The payload bytes -/

section

variable {s : State} {k : Nat}

/-- The two conditions under which a payload offset reads 0 (43_accessors.md R98). -/
theorem payloadByte_eq_zero (h : s.valid = false ∨ s.params.payloadLen ≤ k) : s.payloadByte k = 0#8 := by
  rcases h with hv | hk
  · exact payloadByte_of_notValid hv k
  · rw [State.payloadByte, if_pos hk, ite_self]

/-- At rest `VALID` says the buffer is full (10_state.md R35). -/
theorem full_of_valid_idle (hi : s.Inv) (hq : s.seq = .idle) (hv : s.valid = true) : s.bufFull = true := by
  obtain ⟨-, hvf⟩ := (seqInv_atRest (.inl hq)).1 hi.2
  exact (validIsFull_iff.1 hvf).1.symm.trans hv

/-- A full buffer holds the whole payload, behind its marker (20_memory.md R44). -/
theorem bufPeek_payload_of_full (hf : s.bufFull = true) (hk : k < s.params.payloadLen) :
    s.bufPeek (1 + k) = s.storeRead ((s.head + 1 + k) % s.capacity) := by
  rw [bufPeek_inside (by rw [(bufFull_iff s).1 hf]; omega), Nat.add_assoc]

end

/-! ### The two compositions of GET_INT as numbers (43_accessors.md R103, R104) -/

/-- Shifting a word by a byte and filling in the byte is `r * 256 + b`, to the width of the word. -/
theorem toNat_shiftLeft_or_byte {w : Nat} (r : BitVec w) (b : Byte) :
    (r <<< 8 ||| b.setWidth w).toNat = (r.toNat * 256 + b.toNat) % 2 ^ w := by
  rw [BitVec.toNat_or, BitVec.toNat_shiftLeft, BitVec.toNat_setWidth, ← Nat.or_mod_two_pow,
    ← Nat.shiftLeft_add_eq_or_of_lt b.isLt, Nat.shiftLeft_eq]

theorem composeIntended_toNat (hi lo : Byte) : (composeIntended hi lo).toNat = 256 * hi.toNat + lo.toNat := by
  rw [composeIntended, toNat_shiftLeft_or_byte, BitVec.toNat_setWidth]
  omega

theorem composeReference_toNat (hi lo : Byte) :
    (composeReference hi lo).toNat = hi.toNat * 2 ^ (8 + lo.toNat) % 65536 := by
  rw [composeReference, BitVec.toNat_shiftLeft, BitVec.toNat_setWidth, Nat.shiftLeft_eq,
    Nat.mod_eq_of_lt (hi.isLt.trans (by decide))]

/-- A shift by 16 or more leaves nothing of the high byte. -/
theorem composeReference_eq_zero {hi lo : Byte} (h : 8 ≤ lo.toNat) : composeReference hi lo = 0#16 :=
  BitVec.shiftLeft_eq_zero (by omega)

/-! ### The walk of GET_LONG (43_accessors.md R105) -/

theorem walk_of_le {i j : Nat} (h : i ≤ j) : walk i j = (List.range (j - i + 1)).map (fun d => i + d) := if_pos h

theorem walk_of_ge {i j : Nat} (h : j ≤ i) : walk i j = (List.range (i - j + 1)).map (fun d => i - d) := by
  rcases h.eq_or_lt with rfl | hlt
  · simp [walk]
  · exact if_neg hlt.not_ge

theorem walk_self (j : Nat) : walk j j = [j] := by simp [walk]

/-- Off its end, a walk takes one step towards it. -/
theorem walk_of_ne {k j : Nat} (h : k ≠ j) : walk k j = k :: walk (if k < j then k + 1 else k - 1) j := by
  rcases h.lt_or_gt with hlt | hgt
  · have hlen : j - k = j - (k + 1) + 1 := by omega
    rw [if_pos hlt, walk_of_le hlt.le, walk_of_le hlt, List.range_succ_eq_map, hlen]
    simp [Nat.add_comm, Nat.add_left_comm]
  · have hlen : k - j = k - 1 - j + 1 := by omega
    rw [if_neg hgt.not_gt, walk_of_ge hgt.le, walk_of_ge (Nat.le_sub_one_of_lt hgt), List.range_succ_eq_map, hlen]
    simp [Nat.sub_sub, Nat.add_comm]

/-- The loop of GET_LONG accumulates the payload bytes along the walk, if it has a pass for each and steps towards `j`. -/
theorem longLoop_eq_foldl_walk (s : State) {i j fuel k : Nat} (hfuel : (k - j) + (j - k) < fuel)
    (hdir : k ≠ j → (i < j ↔ k < j)) (r : Word) :
    s.longLoop i j fuel k r = ((walk k j).map s.payloadByte).foldl accumulate r := by
  induction fuel generalizing k r with
  | zero => exact absurd hfuel (Nat.not_lt_zero _)
  | succ n ih =>
    by_cases hk : k = j
    · rw [State.longLoop, if_pos hk, hk, walk_self]
      rfl
    · have hnext : s.longLoop i j (n + 1) k r =
          s.longLoop i j n (if k < j then k + 1 else k - 1) (accumulate r (s.payloadByte k)) := by
        rw [State.longLoop, if_neg hk]
        simp only [hdir hk]
      rw [hnext, walk_of_ne hk, List.map_cons, List.foldl_cons]
      refine ih ?_ ?_ _
      · split <;> omega
      · rw [hdir hk]
        split <;> omega

/-- The 256 passes of the model reach the end of every walk (assumption 18). -/
theorem exec_getLong (i j : Byte) (s : State) : exec (.getLong i j) s =
    .next (s.respond (((walk i.toNat j.toNat).map s.payloadByte).foldl accumulate 0#32)) := by
  rw [← longLoop_eq_foldl_walk s (i := i.toNat) (fuel := 256) (by omega) (fun _ => Iff.rfl)]
  rfl

/-- Reducing modulo `2^W_LONG` at the end is the same as reducing after each byte. -/
theorem foldl_accumulate_toNat (bs : List Byte) {r : Word} {n : Nat} (h : r.toNat = n % 2 ^ 32) :
    (bs.foldl accumulate r).toNat = (bs.map BitVec.toNat).foldl (fun r b => r * 256 + b) n % 2 ^ 32 := by
  induction bs generalizing r n with
  | nil => exact h
  | cons b bs ih =>
    refine ih (n := n * 256 + b.toNat) ?_
    rw [accumulate, toNat_shiftLeft_or_byte, h]
    omega

/-! ### Answers do not depend on the responses before them (43_accessors.md R99) -/

/-- A command other than PROCESS answers after a response what it answers before it. -/
theorem exec_other_respond {i : Instr} (h : i ≠ .process) (s : State) (v : Word) :
    ∃ w, exec i s = .next (s.respond w) ∧ exec i (s.respond v) = .next ((s.respond v).respond w) := by
  cases i with
  | process => exact absurd rfl h
  | getByte a => exact ⟨_, rfl, rfl⟩
  | getInt a b => exact ⟨_, rfl, rfl⟩
  | getLong a b => exact ⟨_, exec_getLong a b s, exec_getLong a b (s.respond v)⟩
  | count => exact ⟨_, rfl, rfl⟩
  | isFull => exact ⟨_, rfl, rfl⟩
  | isEmpty => exact ⟨_, rfl, rfl⟩
  | reserved w => exact ⟨_, rfl, rfl⟩

/-! ### The statements of 43_accessors.md -/

/-- Settles O33: each case of the payload byte, the last read from the buffer that `VALID` says is full. -/
theorem getByteReadsPayload : Obligations.GetByteReadsPayload := by
  refine fun s i => ⟨fun h => ?_, fun hv hk => ?_, fun hi hq hv hk => ?_⟩
  · rw [exec_getByte, payloadByte_eq_zero h]
    rfl
  · rw [exec_getByte, payloadByte_of_valid hv hk]
    rfl
  · rw [exec_getByte, payloadByte_of_valid hv hk, bufPeek_payload_of_full (full_of_valid_idle hi hq hv) hk]
    rfl

/-- Settles O34: the response is the `INTENDED` composition of the two payload bytes. -/
theorem getIntIntendedComposition : Obligations.GetIntIntendedComposition := by
  intro s i j hm
  refine ⟨_, exec_getInt i j s, ?_⟩
  rw [hm, BitVec.toNat_setWidth_of_le (by decide)]
  exact composeIntended_toNat _ _

/-- Settles O35: the response is the `REFERENCE` composition of the two payload bytes. -/
theorem getIntReferenceComposition : Obligations.GetIntReferenceComposition := by
  intro s i j hm
  refine ⟨_, exec_getInt i j s, ?_, fun h => ?_⟩
  · rw [hm, BitVec.toNat_setWidth_of_le (by decide)]
    exact composeReference_toNat _ _
  · rw [hm, composeInt, composeReference_eq_zero h]
    rfl

/-- Settles O36: modulo 256 the `INTENDED` composition is the low byte and the `REFERENCE` one is 0; with a low byte of 0
both are `256 * hi`. -/
theorem getIntModesAgreeOnZeroLow : Obligations.GetIntModesAgreeOnZeroLow := by
  intro hi lo
  have hvalues : composeInt .intended hi lo = composeInt .reference hi lo ↔
      256 * hi.toNat + lo.toNat = hi.toNat * 2 ^ (8 + lo.toNat) % 65536 := by
    rw [← composeIntended_toNat, ← composeReference_toNat]
    exact BitVec.toNat_inj.symm
  have hzero : lo = 0#8 ↔ lo.toNat = 0 := BitVec.toNat_inj.symm
  rw [hvalues, hzero, Nat.pow_add, Nat.mul_left_comm]
  refine ⟨fun h => by omega, fun h => ?_⟩
  rw [h]
  omega

/-- Settles O37: the loop runs along the walk, and its accumulator is the number modulo `2^W_LONG`. -/
theorem getLongAccumulatesWalk : Obligations.GetLongAccumulatesWalk := by
  intro s i j
  refine ⟨_, exec_getLong i j s, ?_⟩
  rw [foldl_accumulate_toNat _ (n := 0) rfl, List.map_map]
  rfl

/-- Settles O39: `k` leaves its response only, which no answer depends on. -/
theorem accessorsArePureAndRepeatable : Obligations.AccessorsArePureAndRepeatable := by
  intro i k s t hi hk h
  obtain ⟨w, hw⟩ := exec_other hk s
  cases hw.symm.trans h
  exact ⟨rfl, exec_other_respond hi s w⟩

end Sys2Proof.Machine

namespace Sys2Proof.Machine

/-! ### The queries over the state they are asked in (44_queries.md R106, R107, R108) -/

theorem exec_count (s : State) : exec .count s = .next (s.respond (BitVec.ofNat 32 s.liveCount)) := rfl

theorem exec_isFull (s : State) : exec .isFull s = .next (s.respond (bitWord s.bufFull)) := rfl

theorem exec_isEmpty (s : State) : exec .isEmpty s = .next (s.respond (bitWord s.bufEmpty)) := rfl

section

variable {s : State}

/-- A live count, at most 258, fits the response word (00_scope.md R9, R10). -/
theorem liveCount_lt_of_legal (hl : s.params.Legal) : s.liveCount < 2 ^ 32 := by
  have hlt : s.liveCount < s.params.payloadLen + 3 := liveCount_lt s
  obtain ⟨-, hN⟩ := hl
  omega

/-- With the head in range, `C - 1` positions from the head to the tail are one position from the tail to the head. -/
theorem liveCount_eq_pred_iff (hh : s.head < s.capacity) :
    s.liveCount = s.capacity - 1 ↔ s.head = (s.tail + 1) % s.capacity := by
  have hC := capacity_pos s
  have hhead : (s.head + (s.capacity - 1) + 1) % s.capacity = s.head := by
    rw [Nat.add_assoc, Nat.sub_add_cancel hC, Nat.add_mod_right, Nat.mod_eq_of_lt hh]
  constructor
  · intro h
    have htail : s.head + (s.capacity - 1) ≡ s.tail [MOD s.capacity] := h ▸ head_add_liveCount s
    exact hhead.symm.trans (htail.add_right 1)
  · intro h
    have htail : s.head + (s.capacity - 1) + 1 ≡ s.tail + 1 [MOD s.capacity] := hhead.trans h
    exact liveCount_unique (Nat.sub_one_lt_of_lt hC) (htail.add_right_cancel' 1)

/-- A bit that stands for `P` answers 1 where `P` holds and else 0 (30_encoding.md R60). -/
theorem respond_bitWord_of_iff {b : Bool} {P : Prop} (h : b = true ↔ P) :
    (P → s.respond (bitWord b) = { s with rsplog := s.rsplog ++ [1#32] }) ∧
    (¬ P → s.respond (bitWord b) = { s with rsplog := s.rsplog ++ [0#32] }) := by
  cases b with
  | true => exact ⟨fun _ => rfl, fun hP => absurd (h.1 rfl) hP⟩
  | false => exact ⟨fun hP => absurd (h.2 hP) Bool.false_ne_true, fun _ => rfl⟩

end

/-! ### The statements of 44_queries.md -/

/-- Settles O40: `n` is the live count, which fits the response word. -/
theorem countAnswersLiveCount : Obligations.CountAnswersLiveCount := by
  intro s n hl hn h
  obtain rfl : s.liveCount = n := liveCount_unique hn h
  exact ⟨_, exec_count s, Nat.mod_eq_of_lt (liveCount_lt_of_legal hl)⟩

/-- Settles O41: BUF_FULL, as 40_buffer.md R73 defines it, is the cursor condition. -/
theorem isFullAnswers : Obligations.IsFullAnswers := by
  intro s hp
  obtain ⟨hh, -, -⟩ := placed_iff.1 hp
  have hcursors := liveCount_eq_pred_iff hh
  obtain ⟨hone, hzero⟩ := respond_bitWord_of_iff ((bufFull_iff_capacity s).trans hcursors)
  exact ⟨hcursors, fun h => by rw [exec_isFull, hone h], fun h => by rw [exec_isFull, hzero h]⟩

/-- Settles O42: BUF_EMPTY compares the cursors, which are equal exactly when the live count is 0. -/
theorem isEmptyAnswers : Obligations.IsEmptyAnswers := by
  intro s hp
  obtain ⟨hh, ht, -⟩ := placed_iff.1 hp
  have hcursors : s.bufEmpty = true ↔ s.head = s.tail := beq_iff_eq
  obtain ⟨hone, hzero⟩ := respond_bitWord_of_iff hcursors
  exact ⟨(bufEmpty_iff hh ht).symm.trans hcursors, fun h => by rw [exec_isEmpty, hone h],
    fun h => by rw [exec_isEmpty, hzero h]⟩

/-- Settles O44: no reserved word does anything but answer. -/
theorem reservedAnswersZero : Obligations.ReservedAnswersZero := fun w s => exec_reserved w s

end Sys2Proof.Machine

namespace Sys2Proof.Machine

/-! ### The statements of 60_exceptions.md -/

/-- Settles O13: PROCESS answers a next state at every `SEQ`, and every other command only responds. -/
theorem everyCommandAnswers : Obligations.EveryCommandAnswers := by
  intro i s
  obtain rfl | hi := eq_or_ne i .process
  · exact exec_process_total s
  · obtain ⟨v, hv⟩ := exec_other hi s
    exact ⟨s.respond v, hv⟩

end Sys2Proof.Machine

namespace Sys2Proof.Machine

/-! ### The buffer after a reset (10_state.md R39) -/

/-- With equal cursors no byte is live. -/
@[simp] theorem assertReset_liveCount (s : State) : s.assertReset.liveCount = 0 :=
  liveCount_unique (capacity_pos _) rfl

@[simp] theorem assertReset_phase (s : State) : s.assertReset.phase = some .empty := by
  rw [phase_idle (assertReset_seq s), assertReset_valid, assertReset_liveCount]
  rfl

/-! ### The statement of 70_reset_and_hazards.md -/

/-- Settles O9: at every `SEQ` the step is the environment's turn, which reads and writes nothing, and then the reset. -/
theorem resetPinAtAnyTime : Obligations.ResetPinAtAnyTime := by
  intro s hl hr
  exact ⟨s.takeTurn.assertReset, step_reset hl hr, rfl, rfl, rfl, rfl, rfl, rfl, assertReset_liveCount _,
    assertReset_phase _, rfl, rfl, rfl, rfl⟩

end Sys2Proof.Machine

namespace Sys2Proof

/-! ### Which words match a row of the opcode table (30_encoding.md section 4) -/

section

variable {w : Word}

/-- The upper half of a word is `OP` and `RSV` (30_encoding.md R58). -/
theorem upperHalf_eq_op_rsv (w : Word) : w.toNat / 2 ^ 16 = Word.op w * 2 ^ 12 + Word.rsv w := by
  unfold Word.op Word.rsv
  omega

/-- `match` and `mask` of the words with `OP = k` and `RSV = 0`. -/
def rowOfOp (k : Nat) : Word × Word := (BitVec.ofNat 32 (k * 2 ^ 28), 0xFFFF0000#32)

/-- The defined rows are those of `OP` 1 to 7. -/
theorem definedRows_eq_map : definedRows = (List.range' 1 7).map rowOfOp := rfl

theorem matchesRow_rowOfOp_iff {k : Nat} (hk : k < 16) :
    matchesRow w (rowOfOp k) = true ↔ Word.op w = k ∧ Word.rsv w = 0 := by
  have hrsv : Word.rsv w < 2 ^ 12 := Nat.mod_lt _ (by decide)
  rw [matchesRow, rowOfOp, beq_iff_eq, ← BitVec.toNat_inj, and_upper_toNat, BitVec.toNat_ofNat, upperHalf_eq_op_rsv]
  omega

/-- A word matches the row of a single bit exactly when it has that bit. -/
theorem matchesRow_single_bit_iff {b : Nat} (hb : b < 32) :
    matchesRow w (1#32 <<< b, 1#32 <<< b) = true ↔ w.getLsbD b = true := by
  refine ⟨fun h => ?_, single_bit_matches⟩
  have hbit : (1#32 <<< b).getLsbD b = true := by simp [hb]
  have hand : w &&& 1#32 <<< b = 1#32 <<< b := beq_iff_eq.1 h
  rw [← hand, BitVec.getLsbD_and, Bool.and_eq_true] at hbit
  exact hbit.1

theorem op_eq_zero_of_matchesRow (h : matchesRow w (0x00000000#32, 0xF0000000#32) = true) : Word.op w = 0 := by
  rw [matchesRow, beq_iff_eq] at h
  have hf : opField (w &&& 0xF0000000#32) = opField w := by
    rw [opField, BitVec.extractLsb'_and]
    exact BitVec.and_allOnes
  rw [Word.op, ← opField_toNat, ← hf, h]
  rfl

theorem le_op_of_topBit (h : w.getLsbD 31 = true) : 8 ≤ Word.op w := by
  have := BitVec.le_toNat_of_msb_true (x := w) h
  unfold Word.op
  omega

theorem rsv_ne_zero_of_bit {b : Nat} (hb : b < 12) (h : w.getLsbD (16 + b) = true) : Word.rsv w ≠ 0 := by
  intro h0
  have hf : (rsvField w).getLsbD b = true := by simpa [rsvField, hb] using h
  rw [BitVec.eq_of_toNat_eq (y := 0#12) ((rsvField_toNat w).trans h0)] at hf
  simp at hf

/-- The words that match a RESERVED row are the reserved words (30_encoding.md R62). -/
theorem reservedRows_any_iff : reservedRows.any (matchesRow w) = true ↔ Word.isReserved w = true := by
  refine ⟨fun h => isReserved_iff.2 ?_, reserved_matches⟩
  obtain ⟨row, hrow, hm⟩ := List.any_eq_true.1 h
  simp only [reservedRows, List.mem_append, List.mem_cons, List.not_mem_nil, or_false, List.mem_map,
    List.mem_range] at hrow
  obtain (rfl | rfl) | ⟨b, hb, rfl⟩ := hrow
  · exact .inl (op_eq_zero_of_matchesRow hm)
  · exact .inr (.inl (le_op_of_topBit ((matchesRow_single_bit_iff (b := 31) (by decide)).1 hm)))
  · exact .inr (.inr (rsv_ne_zero_of_bit hb ((matchesRow_single_bit_iff (by omega)).1 hm)))

theorem filter_definedRows_of_reserved (h : Word.isReserved w = true) : definedRows.filter (matchesRow w) = [] := by
  rw [isReserved_iff] at h
  rw [List.filter_eq_nil_iff, definedRows_eq_map, List.forall_mem_map]
  intro k hk
  rw [List.mem_range'_1] at hk
  rw [matchesRow_rowOfOp_iff (by omega)]
  omega

/-- Of the seven defined rows, a word that is not reserved matches the one of its `OP`. -/
theorem filter_definedRows_of_not_reserved (h : ¬ Word.isReserved w = true) :
    definedRows.filter (matchesRow w) = [rowOfOp (Word.op w)] := by
  rw [isReserved_iff] at h
  have hop : Word.op w ∈ List.range' 1 7 := List.mem_range'_1.2 (by omega)
  have hrow : ∀ k ∈ List.range' 1 7, (matchesRow w ∘ rowOfOp) k = (k == Word.op w) := by
    intro k hk
    rw [List.mem_range'_1] at hk
    rw [Function.comp_apply, Bool.eq_iff_iff, matchesRow_rowOfOp_iff (by omega), beq_iff_eq]
    omega
  rw [definedRows_eq_map, List.filter_map, List.filter_congr hrow, List.filter_beq,
    List.count_eq_one_of_mem List.nodup_range' hop]
  rfl

end

/-! ### The sentence after the opcode map -/

/-- Settles O6: the reserved words match no defined row, and every other word matches the one of its `OP`. -/
theorem tableRowsPartitionWords : Obligations.TableRowsPartitionWords := by
  intro w
  by_cases h : Word.isReserved w = true
  · exact .inr ⟨filter_definedRows_of_reserved h, reservedRows_any_iff.2 h⟩
  · refine .inl ⟨by rw [filter_definedRows_of_not_reserved h]; rfl, ?_⟩
    rwa [← Bool.not_eq_true, reservedRows_any_iff]

end Sys2Proof

namespace Sys2Proof.Machine

section

variable {s t : State}

/-! ### Every outcome of a step -/

/-- A step with neither refusal's cause has a next state: its turn's, or the one its command answers. -/
theorem exists_step (hl : s.params.Legal) (h : s.nextTurn.rst = true ∨ s.seq = .idle ∨ s.nextTurn.cmd = none) :
    ∃ t, step s = .next t := by
  cases hr : s.nextTurn.rst with
  | true => exact ⟨_, step_reset hl hr⟩
  | false =>
    rw [hr] at h
    cases hc : s.nextTurn.cmd with
    | none =>
      by_cases hq : s.seq = .idle
      · exact ⟨_, step_idle hl hr hq hc⟩
      · exact step_busy hl hr hq hc ▸ everyCommandAnswers .process s.takeTurn
    | some w =>
      have hq : s.seq = .idle := by simpa [hc] using h
      exact step_command hl hr hq hc ▸ everyCommandAnswers (decode w) s.takeTurn

/-- All a step can answer, each outcome with its cause. -/
theorem step_outcomes (s : State) :
    (¬ s.params.Legal ∧ step s = .refused .noInstance) ∨
    ((s.params.Legal ∧ s.nextTurn.rst = false ∧ s.seq ≠ .idle ∧ s.nextTurn.cmd ≠ none) ∧
      step s = .refused .commandWhileBusy) ∨
    ((s.params.Legal ∧ (s.nextTurn.rst = true ∨ s.seq = .idle ∨ s.nextTurn.cmd = none)) ∧ ∃ t, step s = .next t) := by
  by_cases hl : s.params.Legal
  · by_cases h : s.nextTurn.rst = true ∨ s.seq = .idle ∨ s.nextTurn.cmd = none
    · exact .inr (.inr ⟨⟨hl, h⟩, exists_step hl h⟩)
    · simp only [not_or, Bool.not_eq_true] at h
      obtain ⟨hr, hq, hc⟩ := h
      obtain ⟨w, hw⟩ := Option.ne_none_iff_exists'.1 hc
      exact .inr (.inl ⟨⟨hl, hr, hq, hc⟩, step_commandWhileBusy hl hr hq hw⟩)
  · exact .inl ⟨hl, step_noInstance hl⟩

/-! ### What each step of PROCESS writes -/

/-- The elements each step of PROCESS may write, by the step `SEQ` names (42_decode.md R82). -/
theorem exec_process_writes (h : exec .process s = .next t) :
    (s.seq = .idle ∧ t = { s with seq := t.seq }) ∨
    (s.seq = .s1 ∧ t = { s with seq := t.seq, head := t.head }) ∨
    (s.seq = .s2 ∧ t = { s with seq := t.seq, valid := t.valid, retries := t.retries, reads := t.reads }) ∨
    (s.seq = .s3 ∧ t = { s with seq := t.seq, head := t.head }) ∨
    (s.seq = .s4 ∧ t = { s with
      seq := t.seq, rxq := t.rxq, store := t.store, head := t.head, tail := t.tail, reads := t.reads }) ∨
    (s.seq = .s5 ∧ t = { s with seq := t.seq, txlog := t.txlog, head := t.head, retries := t.retries }) ∨
    (s.seq = .s5Ack ∧ t = { s with seq := t.seq, txlog := t.txlog, valid := t.valid }) ∨
    (s.seq = .s6 ∧ t = { s with seq := t.seq, rsplog := t.rsplog }) := by
  obtain ⟨hq, rfl⟩ | ⟨hq, rfl⟩ | ⟨hq, rfl⟩ | ⟨hq, rfl⟩ | ⟨hq, rfl⟩ | ⟨hq, rfl⟩ | ⟨hq, rfl⟩ | ⟨hq, rfl⟩ :=
    exec_process_cases h <;> simp only [hq, true_and, false_and, or_false, false_or, reduceCtorEq]
  · rfl
  · rw [(stepS1_spec s).1]
  · rfl
  · rw [State.stepS3, bufSync_frame]
    rfl
  · obtain ⟨b, rest, -, -, -, e⟩ | ⟨-, e⟩ := stepS4_cases s <;> rw [e]
    · rw [fillWith_frame]
    · rfl
  · obtain ⟨-, e⟩ | ⟨-, -, e⟩ | ⟨-, -, -, e⟩ | ⟨-, -, -, e⟩ := stepS5_cases s <;> rw [e]
    · rfl
    · rfl
    · rw [bufPop_bufSync_frame]
      rfl
    · rw [bufPop_frame]
  · rfl
  · rfl

/-- BUF_PUSH writes no index but the one at the tail, cursors in range or not (40_buffer.md R69). -/
theorem bufPush_storeRead_of_ne (hw : Memory.wf s.store = true) (b : Byte) {a : Nat} (ha : a ≠ s.slot s.tail) :
    (s.bufPush b).storeRead a = s.storeRead a := by
  cases hf : s.bufFull
  · rw [bufPush_room hf]
    exact (read_write (lo := 0) hw (s.slot s.tail) b a).trans (if_neg ha)
  · rw [bufPush_full hf]

@[simp] theorem bufSync_storeRead (s : State) (a : Nat) : s.bufSync.storeRead a = s.storeRead a := by
  rw [bufSync_frame]
  rfl

/-- What the fill does with a byte writes no index but the one at the tail. -/
theorem stepS4_storeRead_of_ne (hw : Memory.wf s.store = true) {a : Nat} (ha : a ≠ s.slot s.tail) :
    s.stepS4.storeRead a = s.storeRead a := by
  obtain ⟨b, rest, -, -, -, e⟩ | ⟨-, e⟩ := stepS4_cases s <;> rw [e]
  · rw [State.fillWith, bufSync_storeRead]
    exact bufPush_storeRead_of_ne (s := { s with rxq := rest, reads := s.reads + 1 }) hw b ha
  · rfl

/-- Only S4 writes the storage, and it writes no index but the one at the tail. -/
theorem exec_process_storeRead_of_ne (h : exec .process s = .next t) (hw : Memory.wf s.store = true) {a : Nat}
    (ha : a ≠ s.slot s.tail) : t.storeRead a = s.storeRead a := by
  obtain ⟨-, e⟩ | ⟨-, e⟩ | ⟨-, e⟩ | ⟨-, e⟩ | ⟨hq, -⟩ | ⟨-, e⟩ | ⟨-, e⟩ | ⟨-, e⟩ := exec_process_writes h
  pick_goal 5
  · cases (exec_process_s4 hq).symm.trans h
    exact stepS4_storeRead_of_ne hw ha
  all_goals
    rw [e]
    rfl

/-! ### A response of one bit -/

/-- Of the two bits, only the bit that is set answers 1 (30_encoding.md R60). -/
theorem eq_true_of_respond_bitWord {b : Bool} (h : s.respond (bitWord b) = s.respond 1#32) : b = true := by
  cases b with
  | true => rfl
  | false => simp [State.respond, bitWord] at h

end

/-! ### The statements of single steps -/

/-- Settles O7: the state that the command runs on is the one the environment's turn leaves. -/
theorem stepRunsIssuedCommand : Obligations.StepRunsIssuedCommand :=
  fun _ _ hl hq hr hc => step_command hl hr hq hc

/-- Settles O12: the causes of the three outcomes exclude each other, as the outcomes do. -/
theorem stepRefusesOnlyImpossibleMoves : Obligations.StepRefusesOnlyImpossibleMoves := by
  intro s
  obtain ⟨hl, e⟩ | ⟨⟨hl, hr, hq, hc⟩, e⟩ | ⟨⟨hl, hn⟩, t, e⟩ := step_outcomes s
  · exact ⟨iff_of_true e hl, iff_of_false (by simp [e]) fun h => hl h.1, iff_of_false (by simp [e]) fun h => hl h.1⟩
  · exact ⟨iff_of_false (by simp [e]) (not_not.2 hl), iff_of_true e ⟨hl, hr, hq, hc⟩,
      iff_of_false (by simp [e]) fun ⟨_, hn⟩ => by simp [hr, hq, hc] at hn⟩
  · exact ⟨iff_of_false (by simp [e]) (not_not.2 hl),
      iff_of_false (by simp [e]) fun ⟨_, hr, hq, hc⟩ => by simp [hr, hq, hc] at hn, iff_of_true ⟨t, e⟩ ⟨hl, hn⟩⟩

/-- Settles O22: accepting the command is the arm of `IDLE`. -/
theorem processIsAccepted : Obligations.ProcessIsAccepted := fun _ hq => exec_process_idle hq

/-- Settles O25: BUF_SYNC moves the head to the first `MARKER` and nothing else. -/
theorem processSynchronizes : Obligations.ProcessSynchronizes := by
  intro s hi hq
  refine ⟨s.stepS3, exec_process_s3 hq, ?_, stepS3_live hi.1⟩
  rw [State.stepS3, bufSync_frame]
  rfl

/-- Settles O31: S6 answers `VALID` as a bit. -/
theorem processRespondsValid : Obligations.ProcessRespondsValid := fun _ hq => exec_process_s6 hq

/-- Settles O32: in each step the elements it may write are among the exceptions, and only S4 writes the storage. -/
theorem processStepFrame : Obligations.ProcessStepFrame := by
  intro s t h
  have hstorage : Memory.wf s.store = true → ∀ a, a ≠ s.slot s.tail → t.storeRead a = s.storeRead a :=
    fun hw _ ha => exec_process_storeRead_of_ne h hw ha
  -- at each `SEQ`, an element that `e` keeps is unchanged, and the clause of one that it does not keep excludes that `SEQ`
  obtain ⟨hq, e⟩ | ⟨hq, e⟩ | ⟨hq, e⟩ | ⟨hq, e⟩ | ⟨hq, e⟩ | ⟨hq, e⟩ | ⟨hq, e⟩ | ⟨hq, e⟩ := exec_process_writes h <;>
    refine ⟨?_, ?_, ?_, ?_, ?_, ?_, ?_, ?_, ?_, ?_, hstorage⟩ <;> rw [e] <;> simp [hq]

/-- Settles O43: at rest `VALID` is BUF_FULL, and a full buffer holds a byte. -/
theorem isFullIsValidAtRest : Obligations.IsFullIsValidAtRest := by
  intro s hi
  refine ⟨fun hq => ?_, fun ⟨hfull, hempty⟩ => ?_⟩
  · obtain ⟨-, hvf⟩ := (seqInv_atRest (.inl hq)).1 hi.2
    rw [exec_isFull, ← (validIsFull_iff.1 hvf).1]
    rfl
  · have hf := eq_true_of_respond_bitWord (Host.Outcome.next.inj ((exec_isFull s).symm.trans hfull))
    have he := eq_true_of_respond_bitWord (Host.Outcome.next.inj ((exec_isEmpty s).symm.trans hempty))
    obtain ⟨hh, ht, -⟩ := placed_iff.1 hi.1
    exact liveCount_ne_zero_of_full hf ((bufEmpty_iff hh ht).1 he)

end Sys2Proof.Machine

namespace Sys2Proof.Machine

/-! ### The last four bytes of a walk (43_accessors.md R105, corner cases) -/

/-- A byte put below a word of any width. -/
theorem toNat_append_byte {n : Nat} (x : BitVec n) (b : Byte) : (x ++ b).toNat = x.toNat * 256 + b.toNat := by
  rw [BitVec.toNat_append, ← Nat.shiftLeft_add_eq_or_of_lt b.isLt, Nat.shiftLeft_eq]

/-- Four bytes fill the response word, whatever was accumulated before them. -/
theorem foldl_accumulate_four (r : Word) (a b c d : Byte) :
    [a, b, c, d].foldl accumulate r = a ++ b ++ c ++ d := by
  apply BitVec.eq_of_toNat_eq
  rw [foldl_accumulate_toNat _ (n := r.toNat) (Nat.mod_eq_of_lt r.isLt).symm]
  simp only [List.map_cons, List.map_nil, List.foldl_cons, List.foldl_nil, toNat_append_byte]
  omega

/-- A walk that ends with four offsets answers their payload bytes, side by side. -/
theorem foldl_accumulate_of_lastFour {s : State} {ks is : List Nat} {a b c d : Nat} (h : ks = is ++ [a, b, c, d]) :
    (ks.map s.payloadByte).foldl accumulate 0#32 =
      s.payloadByte a ++ s.payloadByte b ++ s.payloadByte c ++ s.payloadByte d := by
  rw [h, List.map_append, List.foldl_append]
  exact foldl_accumulate_four ..

theorem range_eq_append_lastFour {n : Nat} (h : 3 ≤ n) :
    List.range (n + 1) = List.range (n - 3) ++ [n - 3, n - 2, n - 1, n] := by
  obtain ⟨m, rfl⟩ := Nat.exists_eq_add_of_le' h
  simp [List.range_succ]

/-- The end of an ascending walk of four or more offsets. -/
theorem walk_lastFour_up {i j : Nat} (h : i + 3 ≤ j) : ∃ is, walk i j = is ++ [j - 3, j - 2, j - 1, j] := by
  refine ⟨(List.range (j - i - 3)).map (fun d => i + d), ?_⟩
  rw [walk_of_le (by omega), range_eq_append_lastFour (by omega), List.map_append, List.append_cancel_left_eq]
  simp only [List.map_cons, List.map_nil, List.cons.injEq, and_true]
  omega

/-- The end of a descending walk of four or more offsets. -/
theorem walk_lastFour_down {i j : Nat} (h : j + 3 ≤ i) : ∃ is, walk i j = is ++ [j + 3, j + 2, j + 1, j] := by
  refine ⟨(List.range (i - j - 3)).map (fun d => i - d), ?_⟩
  rw [walk_of_ge (by omega), range_eq_append_lastFour (by omega), List.map_append, List.append_cancel_left_eq]
  simp only [List.map_cons, List.map_nil, List.cons.injEq, and_true]
  omega

/-! ### The statement about the last four bytes -/

/-- Settles O38: the last four bytes of the walk fill the accumulator, and one byte is what it accumulates from 0. -/
theorem getLongKeepsLastFourBytes : Obligations.GetLongKeepsLastFourBytes := by
  intro s i j
  refine ⟨_, exec_getLong i j s, fun h => ?_, fun h => ?_, ?_⟩
  · obtain ⟨is, hw⟩ := walk_lastFour_up h
    exact foldl_accumulate_of_lastFour hw
  · obtain ⟨is, hw⟩ := walk_lastFour_down h
    exact foldl_accumulate_of_lastFour hw
  · rintro rfl
    rw [walk_self]
    simp [accumulate]

end Sys2Proof.Machine
